-- ==== Sys2Proof/Word.lean ====
section
/-! DEFINITION. The three word sizes BTQC's registers are made of (10_state.md: 8-bit bytes, 32-bit bus words,
64-bit operand registers). Bits are numbered from 0 at the least significant bit (R10), as `BitVec` numbers them. -/

namespace Sys2Proof

/-- One byte: a frame byte, BIN[j] or BOUT[j] (R10, R31, R34). -/
abbrev Byte := BitVec 8

/-- One word of the 32-bit Host data bus, and one command word (R8, R70). -/
abbrev Word := BitVec 32

/-- One 64-bit register, reached as two bus words (R61). -/
abbrev DWord := BitVec 64

end Sys2Proof
end

