-- ==== Sys2Proof/Config.lean ====
section
/-! DEFINITION. The design-time parameters of BTQC (R8), and the values the spec leaves open: BTQC_BASE (U11) and
what a Host read of a result register returns while a command is pending (R177, U7). -/

namespace Sys2Proof

/-- The quantized byte widths {2, 3, 4} of R8, in the order WSEL selects them (R72). -/
inductive Width where
  | w2 | w3 | w4
  deriving DecidableEq, Repr

/-- The two scale factors of R8, in the order SSEL selects them (R73). -/
inductive Scale where
  | s100 | s1M
  deriving DecidableEq, Repr

/-- The two floating-point formats of R8 and R12, in the order FMT selects them (R74). -/
inductive Fmt where
  | f64 | f32
  deriving DecidableEq, Repr

/-- BTQC_BASE, the host address of offset 0x000: the OPEN parameter of R8 and U11.
No rule depends on its value, so it has none here (log entry 1). -/
opaque Config.btqcBase : Nat

/-- The free values of R177: the 32-bit value a Host read draws when it reads, while BUSY = 1, a register that a
command may write or read as a byte group.
The n-th such read of a run returns `Config.freeRead n`; nothing constrains it (log entry 6). -/
opaque Config.freeRead : Nat → Word

end Sys2Proof
end

