-- ==== Sys2Proof/Syntax.lean ====
section
/-! DEFINITION. The commands of BTQC: one constructor per row of spec/opcode_table.json (R71, R72).
The rows of QENC and QDEC fix the width, so the two operand selectors left are the scale (SSEL) and the format (FMT). -/

namespace Sys2Proof

/-- A legal command. The nine rows have 3 + 6 × (2 scales × 2 formats) = 27 instances, the 27 legal words of R76. -/
inductive Instr where
  /-- `NOP` (R140) -/
  | nop
  /-- `QENC.W2.S<s>.<fmt>` (R101) -/
  | qencW2 (sc : Scale) (fmt : Fmt)
  /-- `QENC.W3.S<s>.<fmt>` (R101) -/
  | qencW3 (sc : Scale) (fmt : Fmt)
  /-- `QENC.W4.S<s>.<fmt>` (R101) -/
  | qencW4 (sc : Scale) (fmt : Fmt)
  /-- `QDEC.W2.S<s>.<fmt>` (R102) -/
  | qdecW2 (sc : Scale) (fmt : Fmt)
  /-- `QDEC.W3.S<s>.<fmt>` (R102) -/
  | qdecW3 (sc : Scale) (fmt : Fmt)
  /-- `QDEC.W4.S<s>.<fmt>` (R102) -/
  | qdecW4 (sc : Scale) (fmt : Fmt)
  /-- `FENC` (R123) -/
  | fenc
  /-- `FDEC` (R125) -/
  | fdec
  deriving DecidableEq, Repr

end Sys2Proof
end

