-- ==== Sys2Proof/WellFormed.lean ====
section
/-! DEFINITION. Well-formedness. A command word is well formed when it is legal (R76). Every term of `Instr` is
well formed: its operands are enumerations of exactly the values R72 to R74 allow, and any width pairs with either
scale (R73). -/

namespace Sys2Proof

/-- `Legal(c)` of R76, as the rule writes it. -/
def Legal (c : Word) : Bool :=
  c.extractLsb' 8 24 == 0#24 &&
    (((c.extractLsb' 0 4 == 0x0#4 || c.extractLsb' 0 4 == 0x3#4 || c.extractLsb' 0 4 == 0x4#4) &&
        c.extractLsb' 4 4 == 0#4) ||
      ((c.extractLsb' 0 4 == 0x1#4 || c.extractLsb' 0 4 == 0x2#4) &&
        !(c.extractLsb' 4 2 == 0b11#2)))

/-- No operand of a command can hold an illegal value (R72, R73, R74): there is nothing to check. -/
def Instr.wellFormed : Instr → Bool
  | .nop => true
  | .qencW2 _ _ => true
  | .qencW3 _ _ => true
  | .qencW4 _ _ => true
  | .qdecW2 _ _ => true
  | .qdecW3 _ _ => true
  | .qdecW4 _ _ => true
  | .fenc => true
  | .fdec => true

end Sys2Proof
end

