-- ==== Sys2Proof/Decode.lean ====
section
/-! DEFINITION. Decoding a command word (R70 to R78), and the encoder written from the same tables (R79).
Decoding is total: every 32-bit word is one of the 27 legal commands or is rejected under a name. -/

namespace Sys2Proof

/-- Why a word is illegal (R75, R76, R77). The Engine reports every one of them as error ILL. -/
inductive DecodeError where
  /-- a bit of 31:8 is 1 (R75) -/
  | reservedBits
  /-- OP is 0x5 to 0xF (R71) -/
  | reservedOp
  /-- QENC or QDEC with WSEL = 0b11 (R72) -/
  | reservedWidth
  /-- NOP, FENC or FDEC with a 1 in bits 7:4 (R75) -/
  | selectorBits
  deriving DecidableEq, Repr

/-- The width WSEL selects, none for the reserved 0b11 (R72). -/
def widthOfSel (wsel : BitVec 2) : Option Width :=
  if wsel = 0b00#2 then some .w2
  else if wsel = 0b01#2 then some .w3
  else if wsel = 0b10#2 then some .w4
  else none

/-- The scale SSEL selects (R73). -/
def scaleOfSel (ssel : BitVec 1) : Scale := if ssel = 0#1 then .s100 else .s1M

/-- The format FMT selects (R74). -/
def fmtOfSel (f : BitVec 1) : Fmt := if f = 0#1 then .f64 else .f32

/-- QENC at one of its three widths. -/
def qencOf : Width → Scale → Fmt → Instr
  | .w2, sc, f => .qencW2 sc f
  | .w3, sc, f => .qencW3 sc f
  | .w4, sc, f => .qencW4 sc f

/-- QDEC at one of its three widths. -/
def qdecOf : Width → Scale → Fmt → Instr
  | .w2, sc, f => .qdecW2 sc f
  | .w3, sc, f => .qdecW3 sc f
  | .w4, sc, f => .qdecW4 sc f

/-- The decode of NOP, FENC and FDEC: bits 7:4 must be 0 (R75). -/
def decodePlain (c : Word) (i : Instr) : Except DecodeError Instr :=
  if c.extractLsb' 4 4 = 0#4 then .ok i else .error .selectorBits

/-- The decode of QENC and QDEC: WSEL, SSEL and FMT select the operands (R72 to R74). -/
def decodeScalar (c : Word) (mk : Width → Scale → Fmt → Instr) : Except DecodeError Instr :=
  match widthOfSel (c.extractLsb' 4 2) with
  | some w => .ok (mk w (scaleOfSel (c.extractLsb' 6 1)) (fmtOfSel (c.extractLsb' 7 1)))
  | none => .error .reservedWidth

/-- The command a word stands for, by its OP field (R70, R71). -/
def decode (c : Word) : Except DecodeError Instr :=
  if c.extractLsb' 8 24 = 0#24 then
    if c.extractLsb' 0 4 = 0x0#4 then decodePlain c .nop
    else if c.extractLsb' 0 4 = 0x1#4 then decodeScalar c qencOf
    else if c.extractLsb' 0 4 = 0x2#4 then decodeScalar c qdecOf
    else if c.extractLsb' 0 4 = 0x3#4 then decodePlain c .fenc
    else if c.extractLsb' 0 4 = 0x4#4 then decodePlain c .fdec
    else .error .reservedOp
  else .error .reservedBits

/-- WSEL of a width (R72). -/
def selOfWidth : Width → Word
  | .w2 => 0b00#32
  | .w3 => 0b01#32
  | .w4 => 0b10#32

/-- SSEL of a scale (R73). -/
def selOfScale : Scale → Word
  | .s100 => 0#32
  | .s1M => 1#32

/-- FMT of a format (R74). -/
def selOfFmt : Fmt → Word
  | .f64 => 0#32
  | .f32 => 1#32

/-- `(fmtbit << 7) | (sbit << 6) | (wsel << 4) | op` (R79). -/
def encodeScalar (op : Word) (w : Width) (sc : Scale) (f : Fmt) : Word :=
  (selOfFmt f <<< 7) ||| (selOfScale sc <<< 6) ||| (selOfWidth w <<< 4) ||| op

/-- The word of a command (R71, R79). -/
def encode : Instr → Word
  | .nop => 0x00000000#32
  | .qencW2 sc f => encodeScalar 0x1#32 .w2 sc f
  | .qencW3 sc f => encodeScalar 0x1#32 .w3 sc f
  | .qencW4 sc f => encodeScalar 0x1#32 .w4 sc f
  | .qdecW2 sc f => encodeScalar 0x2#32 .w2 sc f
  | .qdecW3 sc f => encodeScalar 0x2#32 .w3 sc f
  | .qdecW4 sc f => encodeScalar 0x2#32 .w4 sc f
  | .fenc => 0x00000003#32
  | .fdec => 0x00000004#32

/-- The command word of `nbits` table bits with value `w`, every bit above `nbits` zero.
A command is one 32-bit word (R78), so a longer one is none of BTQC's. -/
def tableWord (nbits w : Nat) : Option Word :=
  if nbits ≤ 32 then some (BitVec.ofNat 32 (w % 2 ^ nbits)) else none

/-- What the decoder reads from an instruction whose bits are `w`, numbered as spec/opcode_table.json numbers them. -/
def decodeTableWord (nbits w : Nat) : Option Instr :=
  match tableWord nbits w with
  | some c => (decode c).toOption
  | none => none

end Sys2Proof
end

