-- ==== Sys2Proof/Machine/State.lean ====
section
/-! DEFINITION. The state of BTQC (10_state.md), the Host's and the RESET input's coming moves as plain data, the reasons
a step can stop, and the state right after reset (R41). -/

namespace Sys2Proof.Machine

/-- CTRL.POLICY (R21). It only ever holds three values (R22), so the reserved 0b11 has no constructor. -/
inductive Policy where
  /-- 0b00, `WrapSilently` -/
  | wrap
  /-- 0b01, `ClampAndReport` -/
  | clamp
  /-- 0b10, `Reject` -/
  | reject
  deriving DecidableEq, Repr

/-- STATUS.ERRCODE (R151). The codes 6 to 15 are never produced (U19), so they have no constructor. -/
inductive ErrCode where
  /-- 0 NONE: no error -/
  | none
  /-- 1 ILL: illegal command word -/
  | ill
  /-- 2 QOVF: `QuantizationOverflow` -/
  | qovf
  /-- 3 QSIGN: `SignReconstructionAmbiguity` -/
  | qsign
  /-- 4 QINV: non-finite product -/
  | qinv
  /-- 5 FLEN: `FrameLengthError` -/
  | flen
  deriving DecidableEq, Repr

/-- The fields of STATUS (R23). Its reserved bits 3, 15:13 and 31:22 read 0 and are not stored. -/
structure Status where
  /-- bit 0: a command is pending (R24) -/
  busy : Bool
  /-- bit 1: the last issued command has completed (R25) -/
  done : Bool
  /-- bit 2: the last completed command reported an error (R26) -/
  err : Bool
  /-- bits 7:4 (R26, R151) -/
  errcode : ErrCode
  /-- bits 12:8: the frame field of the reported error, or 0x1F (R26) -/
  efield : BitVec 5
  /-- bit 16, sticky -/
  sOvf : Bool
  /-- bit 17, sticky -/
  sSgn : Bool
  /-- bit 18, sticky -/
  sInv : Bool
  /-- bit 19, sticky -/
  sFlen : Bool
  /-- bit 20, sticky -/
  sIll : Bool
  /-- bit 21, sticky -/
  sHaz : Bool
  deriving DecidableEq, Repr

/-- Memory as address and byte pairs, addresses strictly rising and no entry equal to what an unlisted address reads
as. BTQC's only byte-addressed memory is the frame space (R50). -/
abbrev Memory := List Host.Cell

/-- The size of a bus access. Only 32-bit word accesses have a meaning (R51, R52). -/
inductive AccessSize where
  | byte | halfword | word | doubleword
  deriving DecidableEq, Repr

/-- One access of the Host at `off` bytes from BTQC_BASE (R51). `off` is an integer: an address below the base is
an access too, one R52 gives no meaning. The bus carries 32 bits (R8), so `data` is one word. -/
inductive Access where
  | read (off : Int) (size : AccessSize)
  | write (off : Int) (size : AccessSize) (data : Word)
  deriving DecidableEq, Repr

/-- One move of a run (R174): a step of the Engine, a transaction of the Host, or a change of the RESET input
(R170). -/
inductive Turn where
  | engine
  | host (a : Access)
  | assertReset
  | releaseReset
  deriving DecidableEq, Repr

/-- Everything the spec gives BTQC, then four fields of the model's own. -/
structure State where
  /-- CTRL.POLICY (R21) -/
  policy : Policy
  /-- STATUS (R23) -/
  status : Status
  /-- PEND, the command accepted and not yet run: the only hidden state (R28, R40) -/
  pend : Word
  /-- FLEN.LEN (R29) -/
  flen : Byte
  /-- QIN, the QENC operand (R30) -/
  qin : DWord
  /-- QB, the byte group (R30) -/
  qb : Word
  /-- QOUT, the QDEC result (R30) -/
  qout : DWord
  /-- FRAME, FrameByte(0) to FrameByte(41) (R31) -/
  frame : Memory
  /-- DIN[0..7] (R32) -/
  din : Vector DWord 8
  /-- FIN[0..5] (R33) -/
  fin : Vector Word 6
  /-- BIN[0..3] (R34) -/
  bin : Vector Byte 4
  /-- CIN (R35) -/
  cin : Word
  /-- DOUT[0..7] (R36) -/
  dout : Vector DWord 8
  /-- FOUT[0..5] (R37) -/
  fout : Vector Word 6
  /-- BOUT[0..3] (R38) -/
  bout : Vector Byte 4
  /-- COUT (R39) -/
  cout : Word
  /-- RESET is asserted (R170) -/
  resetLine : Bool
  /-- the model's own: the moves still to come, in order; every order R174 allows is some list (log entry 2) -/
  turns : List Turn
  /-- the model's own: the words the Host's reads have returned, newest first (log entry 5) -/
  reads : List Word
  /-- the model's own: how many free values have been drawn (log entry 6) -/
  draws : Nat
  deriving DecidableEq, Repr

/-- Reasons to stop with a fault. BTQC never traps and no command hangs (R150, R154), so there is none. -/
inductive Fault
  deriving DecidableEq, Repr

/-- Reasons a step has no meaning. -/
inductive Refusal where
  /-- Raised by an arm of `exec` whose instruction has no meaning yet. No arm raises it now. Safe. -/
  | notModelled (mnemonic : String)
  /-- Raised by a Host access of 8, 16 or 64 bits: R52 gives it no meaning and a model refuses it. Safe. -/
  | accessSize (size : AccessSize)
  /-- Raised by a Host access with `off mod 4 ≠ 0` (R52). Safe. -/
  | misaligned (off : Int)
  /-- Raised by a Host access outside offsets 0x000 to 0x1FF (R52). Safe. -/
  | outsideWindow (off : Int)
  /-- Raised by a Host access while RESET is asserted (R172). Safe. -/
  | duringReset
  deriving DecidableEq, Repr

/-- STATUS after reset: 0x00001F00 (R41). -/
def Status.reset : Status where
  busy := false
  done := false
  err := false
  errcode := .none
  efield := 0x1F#5
  sOvf := false
  sSgn := false
  sInv := false
  sFlen := false
  sIll := false
  sHaz := false

/-- BTQC right after reset, RESET released (R41, R170). The fields of the model's own start empty. -/
def State.reset : State where
  policy := .wrap
  status := Status.reset
  pend := 0#32
  flen := 0#8
  qin := 0#64
  qb := 0#32
  qout := 0#64
  frame := []
  din := Vector.replicate 8 0#64
  fin := Vector.replicate 6 0#32
  bin := Vector.replicate 4 0#8
  cin := 0#32
  dout := Vector.replicate 8 0#64
  fout := Vector.replicate 6 0#32
  bout := Vector.replicate 4 0#8
  cout := 0#32
  resetLine := false
  turns := []
  reads := []
  draws := 0

end Sys2Proof.Machine
end

