-- ==== Sys2Proof/Machine/Flags.lean ====
section
/-! DEFINITION. The flags of BTQC: the STATUS fields, how commands and Host writes change them (R24 to R27, R42), and
STATUS as the word the Host reads (R23). -/

namespace Sys2Proof.Machine

/-- The outcome of classifying one quantization (R93). -/
inductive Event where
  /-- no event -/
  | none
  /-- `QuantizationOverflow` -/
  | ovf
  /-- `SignReconstructionAmbiguity` -/
  | sgn
  /-- a non-finite product -/
  | inv
  deriving DecidableEq, Repr

/-- The number of an error code (R151). -/
def ErrCode.bits : ErrCode → BitVec 4
  | .none => 0#4
  | .ill => 1#4
  | .qovf => 2#4
  | .qsign => 3#4
  | .qinv => 4#4
  | .flen => 5#4

/-- `Code(ev)` of R151; no event has the code NONE. -/
def Event.code : Event → ErrCode
  | .none => .none
  | .ovf => .qovf
  | .sgn => .qsign
  | .inv => .qinv

/-- The EFIELD of an error that names no frame field (R23, R151). -/
def noField : BitVec 5 := 0x1F#5

/-- One bit at its place in a word. -/
def bitAt (b : Bool) (n : Nat) : Word := (BitVec.ofBool b).setWidth 32 <<< n

/-- STATUS as the Host reads it (R23). Every reserved bit reads 0. -/
def Status.toWord (st : Status) : Word :=
  bitAt st.busy 0 ||| bitAt st.done 1 ||| bitAt st.err 2 ||| (st.errcode.bits.setWidth 32 <<< 4) |||
    (st.efield.setWidth 32 <<< 8) ||| bitAt st.sOvf 16 ||| bitAt st.sSgn 17 ||| bitAt st.sInv 18 |||
    bitAt st.sFlen 19 ||| bitAt st.sIll 20 ||| bitAt st.sHaz 21

/-- What issuing a command does to STATUS (R56). -/
def Status.issue (st : Status) : Status :=
  { st with busy := true, done := false, err := false, errcode := .none, efield := noField }

/-- What completing a command does to STATUS (R154). -/
def Status.complete (st : Status) : Status := { st with busy := false, done := true }

/-- `raise Error(code, field)` (R153). -/
def Status.raise (st : Status) (code : ErrCode) (field : BitVec 5) : Status :=
  { st with
    err := true
    errcode := code
    efield := field
    sIll := st.sIll || code == .ill
    sFlen := st.sFlen || code == .flen }

/-- The sticky flag of one quantization event (R101, R123). -/
def Status.mark (st : Status) (ev : Event) : Status :=
  { st with
    sOvf := st.sOvf || ev == .ovf
    sSgn := st.sSgn || ev == .sgn
    sInv := st.sInv || ev == .inv }

/-- The sticky flags of every event of a command, in order (R27, R123). -/
def Status.markAll (st : Status) (evs : List Event) : Status := evs.foldl Status.mark st

/-- A Host write of `d` to STATUS: each 1 in bits 21:16 clears the flag at its place (R57). -/
def Status.clear (st : Status) (d : Word) : Status :=
  { st with
    sOvf := st.sOvf && !d.getLsbD 16
    sSgn := st.sSgn && !d.getLsbD 17
    sInv := st.sInv && !d.getLsbD 18
    sFlen := st.sFlen && !d.getLsbD 19
    sIll := st.sIll && !d.getLsbD 20
    sHaz := st.sHaz && !d.getLsbD 21 }

/-- A Host write while a command is pending (R176). -/
def Status.hazard (st : Status) : Status := { st with sHaz := true }

/-- The bits of CTRL.POLICY (R21). -/
def Policy.bits : Policy → BitVec 2
  | .wrap => 0b00#2
  | .clamp => 0b01#2
  | .reject => 0b10#2

/-- A Host write of `b` to CTRL.POLICY: the reserved 0b11 keeps the value it had (R22). -/
def Policy.write (old : Policy) (b : BitVec 2) : Policy :=
  if b = 0b00#2 then .wrap
  else if b = 0b01#2 then .clamp
  else if b = 0b10#2 then .reject
  else old

end Sys2Proof.Machine
end

