-- ==== Sys2Proof/Machine/Ops.lean ====
section
/-! DEFINITION. The named operations over FRAME and the registers: frame bytes and byte groups (R13, R31), issuing,
completing and reporting (R56, R153, R154), and reset (R170).

BTQC has no traps: R150. What stands for taking an exception is `State.raiseError`, and what stands for the return
from one is `State.issue`, which clears what the last command reported (R160). -/

namespace Sys2Proof.Machine

/-- FRAME holds 42 bytes, FrameByte(0) to FrameByte(41) (R31). -/
def frameLength : Nat := 42

/-- What an unlisted frame byte reads as: its reset value (R41). -/
def unlistedByte : Byte := 0x00#8

/-- FrameByte(a) (R13). -/
def Memory.read (m : Memory) (a : Nat) : Byte :=
  match m with
  | [] => unlistedByte
  | c :: rest => if c.1 = a then c.2 else Memory.read rest a

/-- Lists an entry at its place among rising addresses. -/
def Memory.insert (m : Memory) (a : Nat) (b : Byte) : Memory :=
  match m with
  | [] => [(a, b)]
  | c :: rest => if a < c.1 then (a, b) :: c :: rest else c :: Memory.insert rest a b

/-- FrameByte(a) <- b (R13). A byte set to what an unlisted one reads as is not listed. -/
def Memory.write (m : Memory) (a : Nat) (b : Byte) : Memory :=
  let others := m.filter (fun c => c.1 ≠ a)
  if b = unlistedByte then others else Memory.insert others a b

/-- The canonical form of FRAME: addresses strictly rising, each below 42, and no entry equal to what an unlisted byte
reads as. -/
abbrev Memory.wf (m : Memory) : Prop :=
  m.Pairwise (fun c c' => c.1 < c'.1) ∧ (∀ c ∈ m, c.1 < frameLength ∧ c.2 ≠ unlistedByte)

/-- `FrameRead(off, n)` of R13: the n bytes from `off` as one big-endian number (R60). -/
def Memory.readGroup (m : Memory) (off : Nat) : Nat → Nat
  | 0 => 0
  | n + 1 => (m.read off).toNat * 2 ^ (8 * n) + Memory.readGroup m (off + 1) n

/-- `FrameWrite(off, n, g)` of R13: byte j is `(g >> 8*(n-1-j)) & 0xFF`. -/
def Memory.writeGroup (m : Memory) (off : Nat) : Nat → Nat → Memory
  | 0, _ => m
  | n + 1, g => Memory.writeGroup (m.write off (BitVec.ofNat 8 (g >>> (8 * n)))) (off + 1) n g

/-- The same state with another STATUS. -/
def State.withStatus (s : State) (st : Status) : State := { s with status := st }

/-- Command issue: an accepted write of `c` to CMD (R56). -/
def State.issue (s : State) (c : Word) : State := { s with pend := c, status := s.status.issue }

/-- Completion of the pending command (R154). PEND keeps its word, which nothing reads while BUSY = 0 (log entry 7). -/
def State.complete (s : State) : State := s.withStatus s.status.complete

/-- `raise Error(code, field)` (R153). -/
def State.raiseError (s : State) (code : ErrCode) (field : BitVec 5) : State :=
  s.withStatus (s.status.raise code field)

/-- A dropped Host write (R176). -/
def State.hazard (s : State) : State := s.withStatus s.status.hazard

/-- The same state with FRAME `m` and FLEN.LEN `len`. -/
def State.withFrame (s : State) (m : Memory) (len : Byte) : State := { s with frame := m, flen := len }

/-- The same state with QB `v`. -/
def State.withQb (s : State) (v : Word) : State := { s with qb := v }

/-- The same state with QOUT `v`. -/
def State.withQout (s : State) (v : DWord) : State := { s with qout := v }

/-- The same state with other moves to come. -/
def State.withTurns (s : State) (ts : List Turn) : State := { s with turns := ts }

/-- The same state with RESET at another level. -/
def State.withResetLine (s : State) (b : Bool) : State := { s with resetLine := b }

/-- A Host read returns `v`. -/
def State.respond (s : State) (v : Word) : State := { s with reads := v :: s.reads }

/-- A Host read returns a free value (R177). -/
def State.respondFree (s : State) : State :=
  { s with reads := Config.freeRead s.draws :: s.reads, draws := s.draws + 1 }

/-- Asserting RESET: every piece of BTQC's state takes its R41 value, and a pending command is discarded (R170).
The fields of the model's own are no state of BTQC's and stay. -/
def State.assertReset (s : State) : State :=
  { State.reset with resetLine := true, turns := s.turns, reads := s.reads, draws := s.draws }

end Sys2Proof.Machine
end

