-- ==== Sys2Proof/Machine/Control.lean ====
section
/-! DEFINITION. The control command NOP (42_control_commands.md) and the illegal command words (R77). -/

namespace Sys2Proof.Machine

/-- `NOP` (R140): no effect. -/
def execNop (s : State) : Host.Outcome State Fault Refusal := .next s

/-- An illegal word (R77): error ILL and no other effect. -/
def execIllegal (s : State) : Host.Outcome State Fault Refusal := .next (s.raiseError .ill noField)

end Sys2Proof.Machine
end

