-- ==== Sys2Proof/Machine/Float.lean ====
section
/-! DEFINITION. IEEE 754 binary64 and binary32 (R8, R12, G1, G2), computed exactly on natural numbers.

Every finite value of a format is a whole number of its smallest subnormal, the format's UNIT: 2^-1074 in binary64,
2^-149 in binary32. So a finite value is a sign and a count of units, an exact product or quotient is a fraction of
units, and rounding picks a count. -/

namespace Sys2Proof

/-- Bits of the whole pattern. -/
def Fmt.bits : Fmt → Nat
  | .f64 => 64
  | .f32 => 32

/-- Fraction bits: 52 in binary64, 23 in binary32 (G1, G2). -/
def Fmt.fracBits : Fmt → Nat
  | .f64 => 52
  | .f32 => 23

/-- The number 1 is 2^unitExp units. -/
def Fmt.unitExp : Fmt → Nat
  | .f64 => 1074
  | .f32 => 149

/-- The pattern of +infinity: all exponent bits 1, fraction 0. -/
def Fmt.infMag : Fmt → Nat
  | .f64 => 0x7FF0000000000000
  | .f32 => 0x7F800000

/-- How many units the magnitude pattern `mag` (sign bit left out) stands for.
Exponent field 0 is a subnormal, with no hidden bit. -/
def Fmt.units (fmt : Fmt) (mag : Nat) : Nat :=
  if mag >>> fmt.fracBits = 0 then mag
  else (2 ^ fmt.fracBits + mag % 2 ^ fmt.fracBits) <<< (mag >>> fmt.fracBits - 1)

/-- What a pattern encodes: NaN, ±infinity, or ± a count of units of its format (R12). -/
inductive FloatVal where
  | nan
  | inf (neg : Bool)
  | finite (neg : Bool) (units : Nat)
  deriving DecidableEq, Repr

/-- The value of sign `neg` and magnitude pattern `mag`. -/
def Fmt.signedVal (fmt : Fmt) (neg : Bool) (mag : Nat) : FloatVal :=
  if fmt.infMag < mag then .nan
  else if mag = fmt.infMag then .inf neg
  else .finite neg (fmt.units mag)

/-- `val_fmt(bits)` of R12. -/
def Fmt.val (fmt : Fmt) (bits : Nat) : FloatVal :=
  fmt.signedVal (bits.testBit (fmt.bits - 1)) (bits % 2 ^ (fmt.bits - 1))

/-- `n / d` to the nearest integer, ties to the even one. -/
def roundHalfEven (n d : Nat) : Nat :=
  if d < 2 * (n % d) ∨ (2 * (n % d) = d ∧ (n / d) % 2 = 1) then n / d + 1 else n / d

/-- `RNE_fmt` of R12 on a magnitude of `n / d` units: the pattern of the rounded magnitude.
`shift` is the distance from the unit to the last place of the result; 0 for a subnormal, and otherwise it leaves a
significand of `fracBits + 1` bits. A significand that rounds up to the next power of two carries into the exponent
field by itself, and a pattern past the largest finite one is infinity. -/
def Fmt.roundMag (fmt : Fmt) (n d : Nat) : Nat :=
  let shift := Nat.log2 (n / d) - fmt.fracBits
  min (shift <<< fmt.fracBits + roundHalfEven n (d <<< shift)) fmt.infMag

/-- `bits_fmt` of a sign and a magnitude pattern. -/
def Fmt.pattern (fmt : Fmt) (neg : Bool) (mag : Nat) : Nat :=
  if neg then 2 ^ (fmt.bits - 1) + mag else mag

/-- `RNE_fmt(x × s)` of R91: one IEEE 754 multiplication by a positive integer.
NaN stays NaN, infinity stays infinity, and the sign is the operand's, so `(-0) × s = -0`. -/
def Fmt.scaledProduct (fmt : Fmt) (x : FloatVal) (s : Nat) : FloatVal :=
  match x with
  | .nan => .nan
  | .inf neg => .inf neg
  | .finite neg n => fmt.signedVal neg (fmt.roundMag (n * s) 1)

/-- `bits_fmt(RNE_fmt(k / s))` of R99: the exact quotient of an integer, rounded once; `k = 0` gives +0.0. -/
def Fmt.roundedQuotient (fmt : Fmt) (k : Int) (s : Nat) : Nat :=
  fmt.pattern (decide (k < 0)) (fmt.roundMag (k.natAbs <<< fmt.unitExp) s)

/-- `trunc(p)` of R11 and R92 for a finite `p` of `n` units: toward zero, exact whatever its magnitude. -/
def Fmt.trunc (fmt : Fmt) (neg : Bool) (n : Nat) : Int :=
  if neg then -((n >>> fmt.unitExp : Nat) : Int) else ((n >>> fmt.unitExp : Nat) : Int)

end Sys2Proof
end

