-- ==== Sys2Proof/Machine/Operands.lean ====
section
/-! DEFINITION. The operands of the commands: what a width, a scale and a format mean (R76), the frame's slots and its
constant field table (R120), and how an operand is read and a result written. -/

namespace Sys2Proof

/-- The byte width w of R76. -/
def Width.bytes : Width → Nat
  | .w2 => 2
  | .w3 => 3
  | .w4 => 4

/-- The scale factor s of R76. -/
def Scale.factor : Scale → Nat
  | .s100 => 100
  | .s1M => 1000000

namespace Machine

/-- The QENC operand: QIN for F64, QIN[31:0] for F32, whose upper half is ignored (R90). -/
def scalarOperand (s : State) : Fmt → FloatVal
  | .f64 => Fmt.f64.val s.qin.toNat
  | .f32 => Fmt.f32.val (s.qin.extractLsb' 0 32).toNat

/-- A place in the Measurement Set that a frame field is fed from and decoded to (R120). -/
inductive Slot where
  /-- DIN[i] and DOUT[i] -/
  | d (i : Fin 8)
  /-- FIN[j] and FOUT[j] -/
  | f (j : Fin 6)
  /-- BIN[j] and BOUT[j] -/
  | u8 (j : Fin 4)
  /-- CIN and COUT -/
  | u32
  deriving DecidableEq, Repr

/-- How a field is serialized: quantized, or raw in so many bytes (R120). -/
inductive FieldKind where
  | quantized (w : Width) (sc : Scale) (fmt : Fmt)
  | raw (bytes : Nat)
  deriving DecidableEq, Repr

/-- One row of the field table (R120). -/
structure Field where
  /-- the row's slot and source register -/
  slot : Slot
  /-- quantized with its width, scale and format, or raw -/
  kind : FieldKind
  /-- its first frame offset -/
  off : Nat
  deriving DecidableEq, Repr

/-- The bytes a field takes in the frame (R120). -/
def Field.bytes (f : Field) : Nat :=
  match f.kind with
  | .quantized w _ _ => w.bytes
  | .raw n => n

/-- FIELD[0..18], the constant field table (R120). -/
def fieldTable : List Field :=
  [⟨.d 0, .quantized .w2 .s100 .f64, 0⟩,
   ⟨.d 1, .quantized .w3 .s100 .f64, 2⟩,
   ⟨.d 2, .quantized .w3 .s100 .f64, 5⟩,
   ⟨.d 3, .quantized .w4 .s1M .f64, 8⟩,
   ⟨.d 4, .quantized .w4 .s1M .f64, 12⟩,
   ⟨.d 5, .quantized .w2 .s100 .f64, 16⟩,
   ⟨.d 6, .quantized .w2 .s100 .f64, 18⟩,
   ⟨.d 7, .quantized .w2 .s100 .f64, 20⟩,
   ⟨.f 0, .quantized .w2 .s100 .f32, 22⟩,
   ⟨.f 1, .quantized .w2 .s100 .f32, 24⟩,
   ⟨.f 2, .quantized .w2 .s100 .f32, 26⟩,
   ⟨.f 3, .quantized .w2 .s100 .f32, 28⟩,
   ⟨.f 4, .quantized .w2 .s100 .f32, 30⟩,
   ⟨.f 5, .quantized .w2 .s100 .f32, 32⟩,
   ⟨.u8 0, .raw 1, 34⟩,
   ⟨.u8 1, .raw 1, 35⟩,
   ⟨.u8 2, .raw 1, 36⟩,
   ⟨.u8 3, .raw 1, 37⟩,
   ⟨.u32, .raw 4, 38⟩]

/-- The bits of a slot's input register (R32 to R35, R122). -/
def Slot.input (s : State) : Slot → Nat
  | .d i => s.din[i].toNat
  | .f j => s.fin[j].toNat
  | .u8 j => s.bin[j].toNat
  | .u32 => s.cin.toNat

/-- A slot's output register takes the bits `v` (R36 to R39). -/
def Slot.output (s : State) (v : Nat) : Slot → State
  | .d i => { s with dout := s.dout.set i (BitVec.ofNat 64 v) }
  | .f j => { s with fout := s.fout.set j (BitVec.ofNat 32 v) }
  | .u8 j => { s with bout := s.bout.set j (BitVec.ofNat 8 v) }
  | .u32 => { s with cout := BitVec.ofNat 32 v }

end Machine

end Sys2Proof
end

