-- ==== Sys2Proof/Machine/ScalarQuantizer.lean ====
section
/-! DEFINITION. The Scalar Quantizer (40_scalar_quantizer.md): `Quantize`, `Dequantize`, and the meanings of QENC and
QDEC at each width. -/

namespace Sys2Proof.Machine

/-- RRmin(w) of R93. -/
def rrMin : Width → Int
  | .w2 => 0
  | .w3 => 0
  | .w4 => -2147483648

/-- RRmax(w) of R93. -/
def rrMax : Width → Int
  | .w2 => 65535
  | .w3 => 16777215
  | .w4 => 2147483647

/-- The event of a finite product that truncates to `t` (R93), tested in the rule's order. -/
def classifyInt (t : Int) (w : Width) : Event :=
  if t < -2 ^ 31 ∨ t > 2 ^ 31 - 1 then .ovf
  else if w ≠ .w4 ∧ t > rrMax w then .ovf
  else if w ≠ .w4 ∧ t < 0 then .sgn
  else .none

/-- `Classify(p, w)` of R93. The rule gives INV no `t`; 0 stands in its place and nothing reads it. -/
def classify (fmt : Fmt) (p : FloatVal) (w : Width) : Event × Int :=
  match p with
  | .nan => (.inv, 0)
  | .inf _ => (.inv, 0)
  | .finite neg n => (classifyInt (fmt.trunc neg n) w, fmt.trunc neg n)

/-- `clamp(t, lo, hi)` of R11. -/
def clampInt (t lo hi : Int) : Int := if t < lo then lo else if t > hi then hi else t

/-- The CLAMP integer of an event (R95). -/
def clampData (p : FloatVal) (t : Int) (w : Width) : Int :=
  match p with
  | .nan => 0
  | .inf neg => if neg then rrMin w else rrMax w
  | .finite _ _ => clampInt t (rrMin w) (rrMax w)

/-- The integer `k` that is emitted, none when REJECT meets an event (R94, R95, R97). -/
def emitted (pol : Policy) (p : FloatVal) (ev : Event) (t : Int) (w : Width) : Option Int :=
  if ev = .none then some t
  else match pol with
    | .wrap => some (if ev = .inv then 0 else t)
    | .clamp => some (clampData p t w)
    | .reject => none

/-- The group value `G = k mod 2^(8w)` (R96). -/
def groupOf (k : Int) (w : Width) : Nat := (k % (2 : Int) ^ (8 * w.bytes)).toNat

/-- `Quantize(x, fmt, w, s, pol)` of R97. -/
def quantize (x : FloatVal) (fmt : Fmt) (w : Width) (sc : Scale) (pol : Policy) : Event × Option Nat :=
  let p := fmt.scaledProduct x sc.factor
  let c := classify fmt p w
  (c.1, (emitted pol p c.1 c.2 w).map (fun k => groupOf k w))

/-- The accumulator of R98: the group is never sign-extended, and only at w = 4 does it reach bit 31. -/
def accumulator (g : Nat) (w : Width) : Int :=
  let a := g % 2 ^ (8 * w.bytes)
  if w = .w4 then (BitVec.ofNat 32 a).toInt else (a : Int)

/-- `bits_fmt(Dequantize(G, w, s, fmt))` of R99. -/
def dequantize (g : Nat) (w : Width) (sc : Scale) (fmt : Fmt) : Nat :=
  fmt.roundedQuotient (accumulator g w) sc.factor

/-- An event is reported except under WRAP (R101, R155, R156, R157). -/
def reported (pol : Policy) (ev : Event) : Bool := ev != .none && pol != .wrap

/-- QENC at width `w` (R101): the sticky flag, QB, then the report. -/
def qenc (w : Width) (sc : Scale) (fmt : Fmt) (s : State) : State :=
  let r := quantize (scalarOperand s fmt) fmt w sc s.policy
  let s1 := s.withStatus (s.status.mark r.1)
  let s2 := match r.2 with
    | some g => s1.withQb (BitVec.ofNat 32 g)
    | none => s1
  if reported s.policy r.1 then s2.raiseError r.1.code noField else s2

/-- QDEC at width `w` (R102). An F32 result is held in QOUT[31:0], and QOUT[63:32] is 0. -/
def qdec (w : Width) (sc : Scale) (fmt : Fmt) (s : State) : State :=
  s.withQout (BitVec.ofNat 64 (dequantize s.qb.toNat w sc fmt))

/-- `QENC.W2.S<s>.<fmt>` (R101). -/
def execQencW2 (sc : Scale) (fmt : Fmt) (s : State) : Host.Outcome State Fault Refusal := .next (qenc .w2 sc fmt s)

/-- `QENC.W3.S<s>.<fmt>` (R101). -/
def execQencW3 (sc : Scale) (fmt : Fmt) (s : State) : Host.Outcome State Fault Refusal := .next (qenc .w3 sc fmt s)

/-- `QENC.W4.S<s>.<fmt>` (R101). -/
def execQencW4 (sc : Scale) (fmt : Fmt) (s : State) : Host.Outcome State Fault Refusal := .next (qenc .w4 sc fmt s)

/-- `QDEC.W2.S<s>.<fmt>` (R102). -/
def execQdecW2 (sc : Scale) (fmt : Fmt) (s : State) : Host.Outcome State Fault Refusal := .next (qdec .w2 sc fmt s)

/-- `QDEC.W3.S<s>.<fmt>` (R102). -/
def execQdecW3 (sc : Scale) (fmt : Fmt) (s : State) : Host.Outcome State Fault Refusal := .next (qdec .w3 sc fmt s)

/-- `QDEC.W4.S<s>.<fmt>` (R102). -/
def execQdecW4 (sc : Scale) (fmt : Fmt) (s : State) : Host.Outcome State Fault Refusal := .next (qdec .w4 sc fmt s)

end Sys2Proof.Machine
end

