-- ==== Sys2Proof/Machine/FrameCodec.lean ====
section
/-! DEFINITION. The Frame Codec (41_frame_codec.md): FENC and FDEC, both iterating the field table in table order. -/

namespace Sys2Proof.Machine

/-- The event and the byte group of one field (R123). A quantized field takes its value in the field's own format; a
raw field takes its register's bits and never has an event. -/
def fieldResult (s : State) (f : Field) : Event × Option Nat :=
  match f.kind with
  | .quantized w sc fmt => quantize (fmt.val (f.slot.input s)) fmt w sc s.policy
  | .raw _ => (.none, some (f.slot.input s))

/-- The first event of a list and its index, counted from `i` (R123, R158). -/
def firstEvent (i : Nat) : List Event → Option (Nat × Event)
  | [] => none
  | ev :: evs => if ev = .none then firstEvent (i + 1) evs else some (i, ev)

/-- The events of all fields in table order (R123, R124). -/
def frameEvents (s : State) : List Event := fieldTable.map (fun f => (fieldResult s f).1)

/-- `FrameWrite(off_i, w_i, G_i)` for one field; a field without data writes nothing (R123). -/
def writeField (s : State) (m : Memory) (f : Field) : Memory :=
  match (fieldResult s f).2 with
  | some g => m.writeGroup f.off f.bytes g
  | none => m

/-- FRAME after every field has been written (R123). -/
def encodedFrame (s : State) : Memory := fieldTable.foldl (writeField s) s.frame

/-- FENC (R123, R124): every field is classified and its sticky flag set; under REJECT an event keeps FRAME and FLEN;
otherwise all 42 bytes and FLEN are written; the first event is reported except under WRAP. -/
def fenc (s : State) : State :=
  let first := firstEvent 0 (frameEvents s)
  let s1 := s.withStatus (s.status.markAll (frameEvents s))
  let s2 := if s.policy = .reject ∧ first.isSome then s1 else s1.withFrame (encodedFrame s) (BitVec.ofNat 8 frameLength)
  match first with
  | some (i, ev) => if s.policy = .wrap then s2 else s2.raiseError ev.code (BitVec.ofNat 5 i)
  | none => s2

/-- The bits FDEC gives one field's output register (R125). -/
def decodedField (m : Memory) (f : Field) : Nat :=
  match f.kind with
  | .quantized w sc fmt => dequantize (m.readGroup f.off w.bytes) w sc fmt
  | .raw n => m.readGroup f.off n

/-- One field of FDEC (R125). -/
def decodeField (s : State) (f : Field) : State := f.slot.output s (decodedField s.frame f)

/-- FDEC (R125, R126): a length other than 42 is error FLEN before any field is decoded. -/
def fdec (s : State) : State :=
  if s.flen = BitVec.ofNat 8 frameLength then fieldTable.foldl decodeField s else s.raiseError .flen noField

/-- `FENC` (R123). -/
def execFenc (s : State) : Host.Outcome State Fault Refusal := .next (fenc s)

/-- `FDEC` (R125). -/
def execFdec (s : State) : Host.Outcome State Fault Refusal := .next (fdec s)

end Sys2Proof.Machine
end

