-- ==== Sys2Proof/Machine/Dispatch.lean ====
section
/-! DEFINITION. One arm per command: the command's own effect, before the completion every Engine step adds (R154). -/

namespace Sys2Proof.Machine

def exec (i : Instr) (s : State) : Host.Outcome State Fault Refusal :=
  match i with
  | .nop => Sys2Proof.Machine.execNop s
  | .qencW2 sc fmt => Sys2Proof.Machine.execQencW2 sc fmt s
  | .qencW3 sc fmt => Sys2Proof.Machine.execQencW3 sc fmt s
  | .qencW4 sc fmt => Sys2Proof.Machine.execQencW4 sc fmt s
  | .qdecW2 sc fmt => Sys2Proof.Machine.execQdecW2 sc fmt s
  | .qdecW3 sc fmt => Sys2Proof.Machine.execQdecW3 sc fmt s
  | .qdecW4 sc fmt => Sys2Proof.Machine.execQdecW4 sc fmt s
  | .fenc => Sys2Proof.Machine.execFenc s
  | .fdec => Sys2Proof.Machine.execFdec s

end Sys2Proof.Machine
end

