-- ==== Sys2Proof/Machine/HostPort.lean ====
section
/-! DEFINITION. The Host's port (20_memory.md): which accesses have a meaning (R51, R52), the register map (R53), and
what a HostRead returns and a HostWrite changes, while BUSY = 0 and while a command is pending (R176, R177). -/

namespace Sys2Proof.Machine

/-- The words of the register window, by name (R53). `din i` and `dout i` are split in halves (R61). -/
inductive Reg where
  | ctrl | status | cmd | flen | qinLo | qinHi | qb | qoutLo | qoutHi
  | dinLo (i : Fin 8) | dinHi (i : Fin 8) | fin (j : Fin 6) | bin (j : Fin 4) | cin
  | framew (m : Fin 11)
  | doutLo (i : Fin 8) | doutHi (i : Fin 8) | fout (j : Fin 6) | bout (j : Fin 4) | cout
  /-- every other offset of the window: reads 0, ignores writes (R54) -/
  | reserved
  deriving DecidableEq, Repr

/-- The register at offset `off` of the window, a multiple of 4 (R53). -/
def regAt (off : Nat) : Reg :=
  if off = 0x000 then .ctrl
  else if off = 0x004 then .status
  else if off = 0x008 then .cmd
  else if off = 0x00C then .flen
  else if off = 0x010 then .qinLo
  else if off = 0x014 then .qinHi
  else if off = 0x018 then .qb
  else if off = 0x01C then .qoutLo
  else if off = 0x020 then .qoutHi
  else if h : 0x040 ≤ off ∧ off < 0x080 then
    if off % 8 = 0 then .dinLo ⟨(off - 0x040) / 8, by omega⟩ else .dinHi ⟨(off - 0x040) / 8, by omega⟩
  else if h : 0x080 ≤ off ∧ off < 0x098 then .fin ⟨(off - 0x080) / 4, by omega⟩
  else if h : 0x098 ≤ off ∧ off < 0x0A8 then .bin ⟨(off - 0x098) / 4, by omega⟩
  else if off = 0x0A8 then .cin
  else if h : 0x100 ≤ off ∧ off < 0x12C then .framew ⟨(off - 0x100) / 4, by omega⟩
  else if h : 0x140 ≤ off ∧ off < 0x180 then
    if off % 8 = 0 then .doutLo ⟨(off - 0x140) / 8, by omega⟩ else .doutHi ⟨(off - 0x140) / 8, by omega⟩
  else if h : 0x180 ≤ off ∧ off < 0x198 then .fout ⟨(off - 0x180) / 4, by omega⟩
  else if h : 0x198 ≤ off ∧ off < 0x1A8 then .bout ⟨(off - 0x198) / 4, by omega⟩
  else if off = 0x1A8 then .cout
  else .reserved

/-- Bits 31:0 of a 64-bit register (R61). -/
def loHalf (v : DWord) : Word := v.extractLsb' 0 32

/-- Bits 63:32 of a 64-bit register (R61). -/
def hiHalf (v : DWord) : Word := v.extractLsb' 32 32

/-- A 64-bit register whose low half is written (R61, R64). -/
def setLo (v : DWord) (d : Word) : DWord := hiHalf v ++ d

/-- A 64-bit register whose high half is written (R61, R64). -/
def setHi (v : DWord) (d : Word) : DWord := d ++ loHalf v

/-- FRAMEW[m] as it reads: big-endian, and bits 15:0 of FRAMEW[10] read 0 (R59). -/
def readFramew (fr : Memory) (m : Fin 11) : Word :=
  if m.val = 10 then fr.read 40 ++ fr.read 41 ++ 0x0000#16
  else fr.read (4 * m) ++ fr.read (4 * m + 1) ++ fr.read (4 * m + 2) ++ fr.read (4 * m + 3)

/-- A write of `d` to FRAMEW[m]; bits 15:0 written to FRAMEW[10] are ignored (R59). -/
def writeFramew (fr : Memory) (m : Fin 11) (d : Word) : Memory :=
  let two := (fr.write (4 * m) (d.extractLsb' 24 8)).write (4 * m + 1) (d.extractLsb' 16 8)
  if m.val = 10 then two
  else (two.write (4 * m + 2) (d.extractLsb' 8 8)).write (4 * m + 3) (d.extractLsb' 0 8)

/-- The word a register reads as (R53 to R55, R59, R61, R62). -/
def readReg (s : State) : Reg → Word
  | .ctrl => s.policy.bits.setWidth 32
  | .status => s.status.toWord
  | .cmd => 0#32
  | .flen => s.flen.setWidth 32
  | .qinLo => loHalf s.qin
  | .qinHi => hiHalf s.qin
  | .qb => s.qb
  | .qoutLo => loHalf s.qout
  | .qoutHi => hiHalf s.qout
  | .dinLo i => loHalf s.din[i]
  | .dinHi i => hiHalf s.din[i]
  | .fin j => s.fin[j]
  | .bin j => s.bin[j].setWidth 32
  | .cin => s.cin
  | .framew m => readFramew s.frame m
  | .doutLo i => loHalf s.dout[i]
  | .doutHi i => hiHalf s.dout[i]
  | .fout j => s.fout[j]
  | .bout j => s.bout[j].setWidth 32
  | .cout => s.cout
  | .reserved => 0#32

/-- What an accepted write of `d` does (R22, R53 to R57, R59, R61, R62). -/
def writeReg (s : State) (d : Word) : Reg → State
  | .ctrl => { s with policy := s.policy.write (d.extractLsb' 0 2) }
  | .status => s.withStatus (s.status.clear d)
  | .cmd => s.issue d
  | .flen => { s with flen := d.extractLsb' 0 8 }
  | .qinLo => { s with qin := setLo s.qin d }
  | .qinHi => { s with qin := setHi s.qin d }
  | .qb => { s with qb := d }
  | .qoutLo => s
  | .qoutHi => s
  | .dinLo i => { s with din := s.din.set i (setLo s.din[i] d) }
  | .dinHi i => { s with din := s.din.set i (setHi s.din[i] d) }
  | .fin j => { s with fin := s.fin.set j d }
  | .bin j => { s with bin := s.bin.set j (d.extractLsb' 0 8) }
  | .cin => { s with cin := d }
  | .framew m => { s with frame := writeFramew s.frame m d }
  | .doutLo _ => s
  | .doutHi _ => s
  | .fout _ => s
  | .bout _ => s
  | .cout => s
  | .reserved => s

/-- The registers whose read value is unspecified while a command is pending: every one that a command may write or
read as a byte group (R177). -/
def Reg.unspecifiedWhileBusy : Reg → Bool
  | .ctrl => false
  | .status => false
  | .cmd => false
  | .flen => true
  | .qinLo => false
  | .qinHi => false
  | .qb => true
  | .qoutLo => true
  | .qoutHi => true
  | .dinLo _ => false
  | .dinHi _ => false
  | .fin _ => false
  | .bin _ => false
  | .cin => false
  | .framew _ => true
  | .doutLo _ => true
  | .doutHi _ => true
  | .fout _ => true
  | .bout _ => true
  | .cout => true
  | .reserved => false

/-- `HostRead(off)` (R51, R58, R177). -/
def hostRead (s : State) (off : Nat) : State :=
  if s.status.busy && (regAt off).unspecifiedWhileBusy then s.respondFree else s.respond (readReg s (regAt off))

/-- `HostWrite(off, d)` (R51). While BUSY = 1 it is dropped, whatever the offset (R176). -/
def hostWrite (s : State) (off : Nat) (d : Word) : State :=
  if s.status.busy then s.hazard else writeReg s d (regAt off)

/-- The offset of an access, from BTQC_BASE. -/
def Access.off : Access → Int
  | .read off _ => off
  | .write off _ _ => off

/-- The size of an access. -/
def Access.size : Access → AccessSize
  | .read _ size => size
  | .write _ size _ => size

/-- The offset, from BTQC_BASE, of a host address (R51). -/
def offsetOfAddress (addr : Nat) : Int := (addr : Int) - (Config.btqcBase : Int)

/-- Why an access has no meaning, none for an aligned 32-bit word access inside the window (R51, R52). -/
def Access.refusal (a : Access) : Option Refusal :=
  if a.size ≠ .word then some (.accessSize a.size)
  else if a.off % 4 ≠ 0 then some (.misaligned a.off)
  else if a.off < 0 ∨ a.off > 0x1FC then some (.outsideWindow a.off)
  else none

/-- The effect of an access that has a meaning. -/
def Access.effect (s : State) : Access → State
  | .read off _ => hostRead s off.toNat
  | .write off _ d => hostWrite s off.toNat d

/-- A Host transaction: refused while RESET is asserted (R172) and where R52 gives it no meaning. -/
def hostStep (a : Access) (s : State) : Host.Outcome State Fault Refusal :=
  if s.resetLine then .refused .duringReset
  else match a.refusal with
    | some r => .refused r
    | none => .next (a.effect s)

/-- The turn `HostRead(off)`. -/
def Turn.read (off : Nat) : Turn := .host (.read off .word)

/-- The turn `HostWrite(off, d)`. -/
def Turn.write (off : Nat) (d : Word) : Turn := .host (.write off .word d)

end Sys2Proof.Machine
end

