-- ==== Sys2Proof/Machine/Agents.lean ====
section
/-! DEFINITION. The steps of the agents (R174, R175) and of the RESET input (R170), and which of them comes next. -/

namespace Sys2Proof.Machine

/-- The command in PEND: its meaning, or error ILL for an illegal word (R175, R77). -/
def runPending (s : State) : Host.Outcome State Fault Refusal :=
  match decode s.pend with
  | .ok i => exec i s
  | .error _ => execIllegal s

/-- Completion, in the same atomic step (R154). -/
def thenComplete : Host.Outcome State Fault Refusal → Host.Outcome State Fault Refusal
  | .next s => .next s.complete
  | .fault r => .fault r
  | .refused r => .refused r

/-- One Engine step (R175): the pending command in full, then its completion. -/
def engineStep (s : State) : Host.Outcome State Fault Refusal := thenComplete (runPending s)

/-- One move. An Engine step is enabled exactly when STATUS.BUSY = 1 (R174); a turn of the Engine that finds it
disabled passes without effect (log entry 3). -/
def takeTurn (t : Turn) (s : State) : Host.Outcome State Fault Refusal :=
  match t with
  | .engine => if s.status.busy then engineStep s else .next s
  | .host a => hostStep a s
  | .assertReset => .next s.assertReset
  | .releaseReset => .next (s.withResetLine false)

/-- The next move of the run: the first listed one, and the Engine's when none is listed, so that a pending command
runs (R181) and an idle BTQC stays as it is (R171). -/
def nextTurn (s : State) : Host.Outcome State Fault Refusal :=
  match s.turns with
  | [] => takeTurn .engine s
  | t :: ts => takeTurn t (s.withTurns ts)

/-- The state in which the command word `c` is pending and the Engine moves next: `c` as an accepted write to CMD
issues it (R56), and a turn of the Engine before every other. -/
def placeCommand (s : State) (c : Word) : State := (s.issue c).withTurns (.engine :: s.turns)

end Sys2Proof.Machine
end

