-- ==== Sys2Proof/Machine/Step.lean ====
section
/-! DEFINITION. One step of BTQC, and the placing of a command for it. -/

namespace Sys2Proof.Machine

/-- One step of a run (R174). -/
def step (s : State) : Host.Outcome State Fault Refusal := nextTurn s

/-- `s` with the command word of `nbits` table bits `w` pending, so that the very next step runs it (log entry 8). -/
def State.withFetchWord (s : State) (nbits w : Nat) : State := placeCommand s (BitVec.ofNat 32 (w % 2 ^ nbits))

end Sys2Proof.Machine
end

