-- ==== Sys2Proof/Safety.lean ====
section
/-! DEFINITION. What counts as a safe run, in the terms the claims use: the invariant every step keeps, and the runs
whose every move has a meaning. -/

namespace Sys2Proof.Machine

/-- What holds of BTQC in every reachable state, and is kept by every step from any state in which it holds. -/
structure State.Inv (s : State) : Prop where
  /-- FRAME is in its one canonical form, all of it inside the 42 bytes (R31) -/
  frameWf : s.frame.wf
  /-- no error, no code (R26, R151) -/
  errCode : s.status.err = false ↔ s.status.errcode = .none
  /-- EFIELD is 0x1F, or the index 0..13 of a field whose quantization event is reported (R151, U20) -/
  errField : s.status.efield = noField ∨
    (s.status.efield.toNat ≤ 13 ∧
      (s.status.errcode = .qovf ∨ s.status.errcode = .qsign ∨ s.status.errcode = .qinv))
  /-- while a command is pending nothing is reported of it (R56) -/
  pending : s.status.busy = true → s.status.done = false ∧ s.status.err = false ∧ s.status.efield = noField
  /-- while RESET is asserted every register holds its reset value (R170) -/
  inReset : s.resetLine = true → s.assertReset = s

/-- The level of RESET after a move. -/
def Turn.resetAfter (resetLine : Bool) : Turn → Bool
  | .engine => resetLine
  | .host _ => resetLine
  | .assertReset => true
  | .releaseReset => false

/-- A move has a meaning: a Host access is an aligned word access inside the window, made while RESET is released
(R51, R52, R172); every other move has one always. -/
def Turn.meaningful (resetLine : Bool) : Turn → Bool
  | .engine => true
  | .host a => !resetLine && a.refusal.isNone
  | .assertReset => true
  | .releaseReset => true

/-- Every listed move has a meaning when it comes. -/
def safeTurns (resetLine : Bool) : List Turn → Bool
  | [] => true
  | t :: ts => t.meaningful resetLine && safeTurns (t.resetAfter resetLine) ts

/-- A state whose moves to come all have a meaning. -/
def State.safe (s : State) : Bool := safeTurns s.resetLine s.turns

/-- The Engine moves next, and `ts` are the moves after it: its turn is listed first, or none is listed (the second is
the model's choice: log entry 3). -/
abbrev State.engineNext (s : State) (ts : List Turn) : Prop := s.turns = .engine :: ts ∨ (s.turns = [] ∧ ts = [])

/-- FENC may write the frame: no field has an event, or the policy is not REJECT (R124). -/
abbrev State.fencWrites (s : State) : Prop :=
  s.policy ≠ .reject ∨ ∀ f ∈ fieldTable, (fieldResult s f).1 = .none

/-- A legal word offset of the register window (R51). -/
abbrev windowOffset (off : Nat) : Prop := off % 4 = 0 ∧ off ≤ 0x1FC

end Sys2Proof.Machine
end

