-- ==== Sys2Proof/Certificates/Slice0/Obligations.lean ====
section
/-! DEFINITION. The statements about BTQC. Each docstring names the rules of spec/ it comes from. -/

open Sys2Proof Sys2Proof.Machine

/-! ## Command words -/

/-- Words written out from R71 to R74 and the examples of R79 decode to the commands they stand for. -/
def Obligations.SampleCommandWordsDecode : Prop :=
  decode 0x00000000#32 = .ok .nop ∧
  decode 0x00000001#32 = .ok (.qencW2 .s100 .f64) ∧
  decode 0x00000091#32 = .ok (.qencW3 .s100 .f32) ∧
  decode 0x00000061#32 = .ok (.qencW4 .s1M .f64) ∧
  decode 0x000000C2#32 = .ok (.qdecW2 .s1M .f32) ∧
  decode 0x00000012#32 = .ok (.qdecW3 .s100 .f64) ∧
  decode 0x00000062#32 = .ok (.qdecW4 .s1M .f64) ∧
  decode 0x00000003#32 = .ok .fenc ∧
  decode 0x00000004#32 = .ok .fdec

/-- Decode and encode agree in both directions (R70 to R74, R79): a word decodes to a command exactly when it is that
command's one encoding. -/
def Obligations.DecodeEncodeAgree : Prop :=
  ∀ (c : Word) (i : Instr), decode c = .ok i ↔ i.wellFormed = true ∧ c = encode i

/-- R76 whole: a word decodes exactly when it is legal, the legal words are the 27 listed, and Width, Scale and Fmt are
read from bits 5:4, 6 and 7. -/
def Obligations.LegalityAndOperandDecode : Prop :=
  (∀ c : Word, (∃ i, decode c = .ok i) ↔ Legal c = true) ∧
  (∀ c : Word, Legal c = true ↔ c.toNat ∈
    [0x00, 0x03, 0x04,
     0x01, 0x11, 0x21, 0x41, 0x51, 0x61, 0x81, 0x91, 0xA1, 0xC1, 0xD1, 0xE1,
     0x02, 0x12, 0x22, 0x42, 0x52, 0x62, 0x82, 0x92, 0xA2, 0xC2, 0xD2, 0xE2]) ∧
  (∀ (c : Word) (w : Width) (sc : Scale) (fmt : Fmt),
    (decode c = .ok (qencOf w sc fmt) ∨ decode c = .ok (qdecOf w sc fmt)) →
      (w = if c.extractLsb' 4 2 = 0b00#2 then .w2 else if c.extractLsb' 4 2 = 0b01#2 then .w3 else .w4) ∧
      (sc.factor = if c.extractLsb' 6 1 = 0#1 then 100 else 1000000) ∧
      (fmt = if c.extractLsb' 7 1 = 0#1 then .f64 else .f32))

/-! ## Steps -/

/-- When the word in PEND decodes to a command, the Engine's step is `exec` of that command and then its completion,
BUSY <- 0 and DONE <- 1 (R175, R154). -/
def Obligations.StepRunsPendingCommand : Prop :=
  ∀ (s t : State) (i : Instr) (ts : List Turn),
    s.status.busy = true → s.engineNext ts → decode s.pend = .ok i → exec i { s with turns := ts } = .next t →
      step s = .next { t with status := { t.status with busy := false, done := true } }

/-- `withFetchWord` makes the very next step run its command, issued as R56 issues it (the model's own way of placing a
command: log entry 8). -/
def Obligations.FetchWordRunsNext : Prop :=
  ∀ (s t : State) (nbits w : Nat) (i : Instr),
    nbits ≤ 32 → decodeTableWord nbits w = some i →
    exec i { s with
      pend := BitVec.ofNat 32 (w % 2 ^ nbits)
      status := { s.status with busy := true, done := false, err := false, errcode := .none, efield := 0x1F#5 } }
      = .next t →
    step (s.withFetchWord nbits w) = .next { t with status := { t.status with busy := false, done := true } }

/-- R77: an illegal word in PEND reports ILL with EFIELD 0x1F, sets S_ILL, completes, and changes nothing else. -/
def Obligations.IllegalWordReportsIll : Prop :=
  ∀ (s : State) (ts : List Turn),
    s.status.busy = true → s.engineNext ts → Legal s.pend = false →
      step s = .next { s with
        turns := ts
        status := { s.status with
          busy := false, done := true, err := true, errcode := .ill, efield := 0x1F#5, sIll := true } }

/-- The completion of R154: every Engine step answers a next state with BUSY = 0 and DONE = 1, for every word in PEND, legal
or illegal, with or without an error. What runs before it is said by `StepRunsPendingCommand` and `IllegalWordReportsIll`. -/
def Obligations.EngineStepAlwaysCompletes : Prop :=
  ∀ (s : State) (ts : List Turn),
    s.status.busy = true → s.engineNext ts →
      ∃ t, step s = .next t ∧ t.status.busy = false ∧ t.status.done = true ∧ t.turns = ts

/-- With no command pending the Engine is not enabled: its turn changes no register (R174; that the turn passes is the
model's choice, log entry 3). -/
def Obligations.IdleEngineTurnPasses : Prop :=
  ∀ (s : State) (ts : List Turn),
    s.status.busy = false → s.engineNext ts → step s = .next { s with turns := ts }

/-- R41: the reset value of every register of BTQC, as fields and as the Host reads CTRL and STATUS. -/
def Obligations.ResetValues : Prop :=
  readReg State.reset .ctrl = 0x00000000#32 ∧ State.reset.policy = .wrap ∧
  readReg State.reset .status = 0x00001F00#32 ∧
  State.reset.pend = 0#32 ∧ State.reset.flen = 0#8 ∧
  State.reset.qin = 0#64 ∧ State.reset.qout = 0#64 ∧ State.reset.qb = 0#32 ∧
  (∀ a, a < 42 → State.reset.frame.read a = 0x00#8) ∧
  (∀ i : Fin 8, State.reset.din[i] = 0#64 ∧ State.reset.dout[i] = 0#64) ∧
  (∀ j : Fin 6, State.reset.fin[j] = 0#32 ∧ State.reset.fout[j] = 0#32) ∧
  (∀ j : Fin 4, State.reset.bin[j] = 0#8 ∧ State.reset.bout[j] = 0#8) ∧
  State.reset.cin = 0#32 ∧ State.reset.cout = 0#32

/-- Asserting RESET gives every register its reset value and discards a pending command, in one step and from any
state (R170); releasing it changes the input's level alone (two moves of RESET are the model's form: log entry 4). -/
def Obligations.ResetInputSteps : Prop :=
  ∀ (s : State) (ts : List Turn),
    (s.turns = .assertReset :: ts →
      step s = .next { State.reset with resetLine := true, turns := ts, reads := s.reads, draws := s.draws }) ∧
    (s.turns = .releaseReset :: ts → step s = .next { s with resetLine := false, turns := ts })

/-- The invariant holds right after reset. -/
def Obligations.ResetMeetsInvariant : Prop := State.reset.Inv

/-- Every step keeps the invariant, from every state that meets it: FRAME in its canonical form inside 42 bytes, ERR
and ERRCODE in agreement, EFIELD a field index 0..13 only under a quantization error, nothing reported of a pending
command, and every register at its reset value while RESET is asserted. The canonical form of FRAME and the level of RESET
are the model's forms of R31 and R170 (log entries 9 and 4). -/
def Obligations.EveryStepKeepsInvariant : Prop :=
  ∀ s t : State, s.Inv → step s = .next t → t.Inv

/-- BTQC never stops by itself (R150, R154): a run whose Host accesses are all legal and made while RESET is released
answers a next state for every number of steps. That an idle Engine's turn passes, and that the Engine has the turn when no
move is listed, where R174 gives no step, is the model's choice (log entry 3). -/
def Obligations.SafeRunsNeverStop : Prop :=
  ∀ (s : State) (n : Nat), s.safe = true → ∃ t, Sys2Proof.core.run n s = .next t

/-- A pending command completes as soon as the Engine has its turn, after any legal Host transactions (R174, R181):
none of them can hold it up. -/
def Obligations.PendingCommandCompletes : Prop :=
  ∀ (s : State) (as : List Access),
    s.status.busy = true → s.resetLine = false → (∀ a ∈ as, a.refusal = none) →
    s.turns = as.map Turn.host ++ [.engine] →
      ∃ t, Sys2Proof.core.run (as.length + 1) s = .next t ∧
        t.status.busy = false ∧ t.status.done = true ∧ t.turns = []

/-! ## The Host's port -/

/-- R56: an accepted write to CMD latches PEND, sets BUSY, and clears DONE, ERR, ERRCODE and EFIELD; it writes no other
register and does not look at the word. A write to CMD while BUSY = 1 is dropped (R176). -/
def Obligations.CommandIssue : Prop :=
  ∀ (s : State) (c : Word) (ts : List Turn),
    s.resetLine = false → s.turns = Turn.write 0x008 c :: ts →
      (s.status.busy = false → step s = .next { s with
        turns := ts
        pend := c
        status := { s.status with busy := true, done := false, err := false, errcode := .none, efield := 0x1F#5 } }) ∧
      (s.status.busy = true → step s = .next { s with turns := ts, status := { s.status with sHaz := true } })

/-- R176: a write to any offset while BUSY = 1 changes nothing but S_HAZ, which it sets. -/
def Obligations.BusyWritesAreDropped : Prop :=
  ∀ (s : State) (off : Nat) (d : Word) (ts : List Turn),
    s.resetLine = false → s.status.busy = true → windowOffset off → s.turns = Turn.write off d :: ts →
      step s = .next { s with turns := ts, status := { s.status with sHaz := true } }

/-- R57: a write of `d` to STATUS while BUSY = 0 clears STATUS[n] for each n in 16..21 with d[n] = 1, as the Host reads
STATUS, and changes no other register. -/
def Obligations.StatusWriteOneToClear : Prop :=
  ∀ (s : State) (d : Word) (ts : List Turn),
    s.resetLine = false → s.status.busy = false → s.turns = Turn.write 0x004 d :: ts →
      ∃ st : Status, step s = .next { s with turns := ts, status := st } ∧
        st.toWord = s.status.toWord &&& ~~~(d &&& 0x003F0000#32)

/-- The layout of STATUS (the table of R23): each field at its bits, and 0 in the reserved ones; and the numbers of the
error codes (the table of R151). -/
def Obligations.StatusWordLayout : Prop :=
  (∀ st : Status,
    st.toWord.getLsbD 0 = st.busy ∧ st.toWord.getLsbD 1 = st.done ∧ st.toWord.getLsbD 2 = st.err ∧
    st.toWord.getLsbD 3 = false ∧ st.toWord.extractLsb' 4 4 = st.errcode.bits ∧
    st.toWord.extractLsb' 8 5 = st.efield ∧ st.toWord.extractLsb' 13 3 = 0#3 ∧
    st.toWord.getLsbD 16 = st.sOvf ∧ st.toWord.getLsbD 17 = st.sSgn ∧ st.toWord.getLsbD 18 = st.sInv ∧
    st.toWord.getLsbD 19 = st.sFlen ∧ st.toWord.getLsbD 20 = st.sIll ∧ st.toWord.getLsbD 21 = st.sHaz ∧
    st.toWord.extractLsb' 22 10 = 0#10) ∧
  (ErrCode.none.bits = 0#4 ∧ ErrCode.ill.bits = 1#4 ∧ ErrCode.qovf.bits = 2#4 ∧ ErrCode.qsign.bits = 3#4 ∧
    ErrCode.qinv.bits = 4#4 ∧ ErrCode.flen.bits = 5#4)

/-- R22, with the encoding of R21's table: a write to CTRL sets POLICY from bits 1:0 alone, 0b00 to WRAP, 0b01 to CLAMP
and 0b10 to REJECT; 0b11 leaves it as it was; and CTRL reads as the number of the policy it holds, never a reserved one. -/
def Obligations.PolicyWriteAnyReadLegal : Prop :=
  (∀ (s : State) (d : Word) (ts : List Turn),
    s.resetLine = false → s.status.busy = false → s.turns = Turn.write 0x000 d :: ts →
      ∃ p : Policy, step s = .next { s with turns := ts, policy := p } ∧
        (d.extractLsb' 0 2 = 0b00#2 → p = .wrap) ∧ (d.extractLsb' 0 2 = 0b01#2 → p = .clamp) ∧
        (d.extractLsb' 0 2 = 0b10#2 → p = .reject) ∧ (d.extractLsb' 0 2 = 0b11#2 → p = s.policy) ∧
        p.bits = if d.extractLsb' 0 2 = 0b11#2 then s.policy.bits else d.extractLsb' 0 2) ∧
  (∀ s : State, (s.policy = .wrap → readReg s (regAt 0x000) = 0x00000000#32) ∧
    (s.policy = .clamp → readReg s (regAt 0x000) = 0x00000001#32) ∧
    (s.policy = .reject → readReg s (regAt 0x000) = 0x00000002#32)) ∧
  (∀ s : State, readReg s .ctrl = 0#32 ∨ readReg s .ctrl = 1#32 ∨ readReg s .ctrl = 2#32)

/-- R55: a write to a read-only register changes nothing (while BUSY = 0), and a write to STATUS changes no bit of it
outside 21:16. -/
def Obligations.ReadOnlyWritesHaveNoEffect : Prop :=
  (∀ (s : State) (off : Nat) (d : Word) (ts : List Turn),
    s.resetLine = false → s.status.busy = false → off % 4 = 0 →
    (off = 0x01C ∨ off = 0x020 ∨ (0x140 ≤ off ∧ off ≤ 0x1A8)) →
    s.turns = Turn.write off d :: ts → step s = .next { s with turns := ts }) ∧
  (∀ (s t : State) (d : Word) (ts : List Turn) (n : Nat),
    s.status.busy = false → s.turns = Turn.write 0x004 d :: ts → step s = .next t → n < 16 ∨ 21 < n →
      t.status.toWord.getLsbD n = s.status.toWord.getLsbD n)

/-- R54, its offsets: a reserved offset reads 0x00000000 at any time, and a write to it changes nothing while BUSY = 0. -/
def Obligations.ReservedOffsetsReadZero : Prop :=
  ∀ (s : State) (off : Nat) (d : Word) (ts : List Turn),
    s.resetLine = false → off % 4 = 0 →
    ((0x024 ≤ off ∧ off ≤ 0x03C) ∨ (0x0AC ≤ off ∧ off ≤ 0x0FC) ∨ (0x12C ≤ off ∧ off ≤ 0x13C) ∨
      (0x1AC ≤ off ∧ off ≤ 0x1FC)) →
      (s.turns = Turn.read off :: ts → step s = .next { s with turns := ts, reads := 0#32 :: s.reads }) ∧
      (s.turns = Turn.write off d :: ts → s.status.busy = false → step s = .next { s with turns := ts })

/-- R58 and R177: a HostRead changes no register. It returns the register's value, but for a read of QB, QOUT, FLEN,
FRAMEW, DOUT, FOUT, BOUT or COUT while BUSY = 1, which returns a free value. That it is the
next one of a sequence nothing constrains, counted by `draws`, is the model's choice (log entry 6). -/
def Obligations.HostReadReturns : Prop :=
  ∀ (s : State) (off : Nat) (ts : List Turn),
    s.resetLine = false → windowOffset off → s.turns = Turn.read off :: ts →
      (s.status.busy = true ∧ (off = 0x00C ∨ (0x018 ≤ off ∧ off ≤ 0x020) ∨ (0x100 ≤ off ∧ off ≤ 0x128) ∨
          (0x140 ≤ off ∧ off ≤ 0x1A8)) →
        step s = .next { s with
          turns := ts, reads := Config.freeRead s.draws :: s.reads, draws := s.draws + 1 }) ∧
      (¬ (s.status.busy = true ∧ (off = 0x00C ∨ (0x018 ≤ off ∧ off ≤ 0x020) ∨ (0x100 ≤ off ∧ off ≤ 0x128) ∨
          (0x140 ≤ off ∧ off ≤ 0x1A8))) →
        step s = .next { s with turns := ts, reads := readReg s (regAt off) :: s.reads })

/-- R28, its first two sentences: a read of CMD returns 0 at any time, pending command or not, and changes no register:
PEND cannot be read there. -/
def Obligations.CommandRegisterReadsZero : Prop :=
  ∀ (s : State) (ts : List Turn), s.resetLine = false → s.turns = Turn.read 0x008 :: ts →
    step s = .next { s with turns := ts, reads := 0x00000000#32 :: s.reads }

/-- R59: FRAMEW[m] reads and writes frame bytes 4m to 4m+3 in big-endian order, FRAMEW[10] its two, and a write leaves
every other frame byte and every other register alone. -/
def Obligations.FrameWindowByteOrder : Prop :=
  (∀ (s : State) (m : Nat), m ≤ 9 → readReg s (regAt (0x100 + 4 * m)) =
    s.frame.read (4 * m) ++ s.frame.read (4 * m + 1) ++ s.frame.read (4 * m + 2) ++ s.frame.read (4 * m + 3)) ∧
  (∀ s : State, readReg s (regAt 0x128) = s.frame.read 40 ++ s.frame.read 41 ++ 0x0000#16) ∧
  (∀ (s : State) (m : Nat) (d : Word) (ts : List Turn),
    m ≤ 10 → s.resetLine = false → s.status.busy = false → s.turns = Turn.write (0x100 + 4 * m) d :: ts →
      ∃ fr : Memory, step s = .next { s with turns := ts, frame := fr } ∧
        (∀ k, k ≤ 3 → 4 * m + k < 42 → fr.read (4 * m + k) = d.extractLsb' (24 - 8 * k) 8) ∧
        (∀ a, a < 4 * m ∨ 4 * m + 3 < a ∨ 42 ≤ a → fr.read a = s.frame.read a))

/-- R61: a 64-bit register reads as its two halves, and two writes of a value's halves to DIN[i], or to QIN, in either
order leave that value in it. -/
def Obligations.SplitRegisterHalves : Prop :=
  (∀ (s : State) (i : Fin 8),
    readReg s (regAt 0x010) = s.qin.extractLsb' 0 32 ∧ readReg s (regAt 0x014) = s.qin.extractLsb' 32 32 ∧
    readReg s (regAt 0x01C) = s.qout.extractLsb' 0 32 ∧ readReg s (regAt 0x020) = s.qout.extractLsb' 32 32 ∧
    readReg s (regAt (0x040 + 8 * i)) = s.din[i].extractLsb' 0 32 ∧
    readReg s (regAt (0x044 + 8 * i)) = s.din[i].extractLsb' 32 32 ∧
    readReg s (regAt (0x140 + 8 * i)) = s.dout[i].extractLsb' 0 32 ∧
    readReg s (regAt (0x144 + 8 * i)) = s.dout[i].extractLsb' 32 32) ∧
  (∀ (s : State) (v : DWord) (ts : List Turn), s.resetLine = false → s.status.busy = false →
    (s.turns = Turn.write 0x010 (v.extractLsb' 0 32) :: Turn.write 0x014 (v.extractLsb' 32 32) :: ts ∨
      s.turns = Turn.write 0x014 (v.extractLsb' 32 32) :: Turn.write 0x010 (v.extractLsb' 0 32) :: ts) →
      ∃ u, step s = .next u ∧ step u = .next { s with turns := ts, qin := v }) ∧
  (∀ (s : State) (i : Fin 8) (v : DWord) (ts : List Turn), s.resetLine = false → s.status.busy = false →
    (s.turns = Turn.write (0x040 + 8 * i) (v.extractLsb' 0 32) ::
        Turn.write (0x044 + 8 * i) (v.extractLsb' 32 32) :: ts ∨
      s.turns = Turn.write (0x044 + 8 * i) (v.extractLsb' 32 32) ::
        Turn.write (0x040 + 8 * i) (v.extractLsb' 0 32) :: ts) →
      ∃ u, step s = .next u ∧ step u = .next { s with turns := ts, din := s.din.set i v })

/-- The register map (the table of R53, with R62) and that it has no aliases. Each one-word register reads at its own
offset, byte registers zero-extended. An accepted write to a read-write data register sets that register alone, the half of
a 64-bit one its offset names. And an accepted write to an offset other than CMD leaves what every other offset reads as,
and a read-write data register reads back the bits of the write it keeps. -/
def Obligations.HostWriteTouchesOneWord : Prop :=
  (∀ s : State,
    readReg s (regAt 0x000) = s.policy.bits.setWidth 32 ∧ readReg s (regAt 0x004) = s.status.toWord ∧
    readReg s (regAt 0x00C) = s.flen.setWidth 32 ∧ readReg s (regAt 0x018) = s.qb ∧
    (∀ j : Fin 6, readReg s (regAt (0x080 + 4 * j)) = s.fin[j]) ∧
    (∀ j : Fin 4, readReg s (regAt (0x098 + 4 * j)) = s.bin[j].setWidth 32) ∧
    readReg s (regAt 0x0A8) = s.cin ∧
    (∀ j : Fin 6, readReg s (regAt (0x180 + 4 * j)) = s.fout[j]) ∧
    (∀ j : Fin 4, readReg s (regAt (0x198 + 4 * j)) = s.bout[j].setWidth 32) ∧
    readReg s (regAt 0x1A8) = s.cout) ∧
  (∀ (s : State) (off : Nat) (d : Word) (ts : List Turn),
    s.resetLine = false → s.status.busy = false → s.turns = Turn.write off d :: ts →
      (off = 0x00C → step s = .next { s with turns := ts, flen := d.extractLsb' 0 8 }) ∧
      (off = 0x010 → step s = .next { s with turns := ts, qin := s.qin.extractLsb' 32 32 ++ d }) ∧
      (off = 0x014 → step s = .next { s with turns := ts, qin := d ++ s.qin.extractLsb' 0 32 }) ∧
      (off = 0x018 → step s = .next { s with turns := ts, qb := d }) ∧
      (∀ i : Fin 8, off = 0x040 + 8 * i →
        step s = .next { s with turns := ts, din := s.din.set i (s.din[i].extractLsb' 32 32 ++ d) }) ∧
      (∀ i : Fin 8, off = 0x044 + 8 * i →
        step s = .next { s with turns := ts, din := s.din.set i (d ++ s.din[i].extractLsb' 0 32) }) ∧
      (∀ j : Fin 6, off = 0x080 + 4 * j → step s = .next { s with turns := ts, fin := s.fin.set j d }) ∧
      (∀ j : Fin 4, off = 0x098 + 4 * j →
        step s = .next { s with turns := ts, bin := s.bin.set j (d.extractLsb' 0 8) }) ∧
      (off = 0x0A8 → step s = .next { s with turns := ts, cin := d })) ∧
  (∀ (s t : State) (off : Nat) (d : Word) (ts : List Turn),
    s.status.busy = false → windowOffset off → off ≠ 0x008 → s.turns = Turn.write off d :: ts → step s = .next t →
      (∀ off', windowOffset off' → off' ≠ off → readReg t (regAt off') = readReg s (regAt off')) ∧
      (off = 0x010 ∨ off = 0x014 ∨ off = 0x018 ∨ (0x040 ≤ off ∧ off < 0x098) ∨ off = 0x0A8 ∨
        (0x100 ≤ off ∧ off < 0x128) → readReg t (regAt off) = d) ∧
      (off = 0x00C ∨ (0x098 ≤ off ∧ off < 0x0A8) → readReg t (regAt off) = d &&& 0x000000FF#32) ∧
      (off = 0x128 → readReg t (regAt off) = d &&& 0xFFFF0000#32))

/-- R52 and R51: an access that is not a 32-bit word access at a multiple of 4 from 0x000 to 0x1FC has no step; every
other one, while RESET is released, has one. -/
def Obligations.MalformedAccessesRefused : Prop :=
  ∀ (s : State) (a : Access) (ts : List Turn),
    s.resetLine = false → s.turns = .host a :: ts →
      ((a.size ≠ .word ∨ a.off % 4 ≠ 0 ∨ a.off < 0 ∨ 0x1FC < a.off) → ∃ r, step s = .refused r) ∧
      (¬ (a.size ≠ .word ∨ a.off % 4 ≠ 0 ∨ a.off < 0 ∨ 0x1FC < a.off) → ∃ t, step s = .next t)

/-- R172: a Host transaction while RESET is asserted is refused. That every one, a malformed one too, is refused under the
name `duringReset` is the model's choice (log entry 12). -/
def Obligations.AccessRefusedDuringReset : Prop :=
  ∀ (s : State) (a : Access) (ts : List Turn),
    s.resetLine = true → s.turns = .host a :: ts → step s = .refused .duringReset

/-! ## Floating point -/

/-- `RNE_fmt` of R12. Read the pattern of infinity as the value its exponent field would give; then of all patterns up to
it the rounded one is nearest to `n / d` units, and where another is as near, the rounded one is even. -/
def Obligations.RoundingIsNearestTiesToEven : Prop :=
  ∀ (fmt : Fmt) (n d g : Nat), 0 < d → g ≤ fmt.infMag →
    fmt.roundMag n d ≤ fmt.infMag ∧
    ((n : Int) - fmt.units (fmt.roundMag n d) * d).natAbs ≤ ((n : Int) - fmt.units g * d).natAbs ∧
    (((n : Int) - fmt.units (fmt.roundMag n d) * d).natAbs = ((n : Int) - fmt.units g * d).natAbs →
      g ≠ fmt.roundMag n d → fmt.roundMag n d % 2 = 0)

/-- `val_fmt` of R12 (the layouts of G1 and G2), and that rounding keeps it. A pattern with all exponent bits 1 is NaN, or
infinity where the fraction is 0; one with exponent field 0 is its fraction in units; any other is its significand, hidden bit
first, times 2^(exponent - 1) units. The sign is the top bit, and 2^unitExp units are 1. `Fmt.units` counts the same units,
for the pattern of infinity too, by its exponent field; and every pattern rounds to itself from its count. -/
def Obligations.RoundingKeepsRepresentable : Prop :=
  (∀ b : BitVec 64,
    ((b.extractLsb' 52 11).toNat = 2047 ∧ (b.extractLsb' 0 52).toNat ≠ 0 → Fmt.f64.val b.toNat = .nan) ∧
    ((b.extractLsb' 52 11).toNat = 2047 ∧ (b.extractLsb' 0 52).toNat = 0 →
      Fmt.f64.val b.toNat = .inf (b.getLsbD 63)) ∧
    ((b.extractLsb' 52 11).toNat = 0 → Fmt.f64.val b.toNat = .finite (b.getLsbD 63) (b.extractLsb' 0 52).toNat) ∧
    (0 < (b.extractLsb' 52 11).toNat ∧ (b.extractLsb' 52 11).toNat < 2047 → Fmt.f64.val b.toNat =
      .finite (b.getLsbD 63) ((2 ^ 52 + (b.extractLsb' 0 52).toNat) * 2 ^ ((b.extractLsb' 52 11).toNat - 1)))) ∧
  (∀ b : BitVec 32,
    ((b.extractLsb' 23 8).toNat = 255 ∧ (b.extractLsb' 0 23).toNat ≠ 0 → Fmt.f32.val b.toNat = .nan) ∧
    ((b.extractLsb' 23 8).toNat = 255 ∧ (b.extractLsb' 0 23).toNat = 0 →
      Fmt.f32.val b.toNat = .inf (b.getLsbD 31)) ∧
    ((b.extractLsb' 23 8).toNat = 0 → Fmt.f32.val b.toNat = .finite (b.getLsbD 31) (b.extractLsb' 0 23).toNat) ∧
    (0 < (b.extractLsb' 23 8).toNat ∧ (b.extractLsb' 23 8).toNat < 255 → Fmt.f32.val b.toNat =
      .finite (b.getLsbD 31) ((2 ^ 23 + (b.extractLsb' 0 23).toNat) * 2 ^ ((b.extractLsb' 23 8).toNat - 1)))) ∧
  (Fmt.f64.bits = 64 ∧ Fmt.f32.bits = 32 ∧ Fmt.f64.unitExp = 1074 ∧ Fmt.f32.unitExp = 149 ∧
    Fmt.f64.infMag = 2047 * 2 ^ 52 ∧ Fmt.f32.infMag = 255 * 2 ^ 23 ∧
    Fmt.f64.units (2047 * 2 ^ 52) = 2 ^ 52 * 2 ^ 2046 ∧ Fmt.f32.units (255 * 2 ^ 23) = 2 ^ 23 * 2 ^ 254) ∧
  (∀ (fmt : Fmt) (g : Nat), g < fmt.infMag → fmt.val g = .finite false (fmt.units g)) ∧
  (∀ (fmt : Fmt) (g : Nat), g ≤ fmt.infMag → fmt.roundMag (fmt.units g) 1 = g)

/-- R91: the scaled product. NaN and infinity stay; a finite operand's product is the rounded one with the operand's sign,
infinity where the rounded magnitude is past the largest finite value, and `(-0) × s = -0`. -/
def Obligations.ScaledProductIsOneMultiplication : Prop :=
  ∀ (fmt : Fmt) (sc : Scale) (neg : Bool) (n : Nat),
    fmt.scaledProduct .nan sc.factor = .nan ∧ fmt.scaledProduct (.inf neg) sc.factor = .inf neg ∧
    fmt.scaledProduct (.finite neg 0) sc.factor = .finite neg 0 ∧
    (fmt.roundMag (n * sc.factor) 1 = fmt.infMag → fmt.scaledProduct (.finite neg n) sc.factor = .inf neg) ∧
    (fmt.roundMag (n * sc.factor) 1 ≠ fmt.infMag → fmt.scaledProduct (.finite neg n) sc.factor =
      .finite neg (fmt.units (fmt.roundMag (n * sc.factor) 1)))

/-- R92: a finite `p` of `n` units (2^unitExp to the 1) truncates toward zero, exactly; where |p| < 1 the result is 0. -/
def Obligations.TruncationTowardZero : Prop :=
  ∀ (fmt : Fmt) (neg : Bool) (n : Nat),
    ((fmt.trunc neg n).natAbs * 2 ^ fmt.unitExp ≤ n ∧ n < ((fmt.trunc neg n).natAbs + 1) * 2 ^ fmt.unitExp) ∧
    (neg = false → 0 ≤ fmt.trunc neg n) ∧ (neg = true → fmt.trunc neg n ≤ 0) ∧
    (n < 2 ^ fmt.unitExp → fmt.trunc neg n = 0)

/-! ## Quantize and Dequantize -/

/-- R93: RR(w) is the set of integers Dequantize's accumulator gives back unchanged, its bounds are the table's, and
`Classify` returns exactly the event of the range `t` lies in, INV for a non-finite product. -/
def Obligations.EventClassification : Prop :=
  (∀ (w : Width) (t : Int), accumulator (groupOf t w) w = t ↔ rrMin w ≤ t ∧ t ≤ rrMax w) ∧
  (rrMin .w2 = 0 ∧ rrMax .w2 = 65535 ∧ rrMin .w3 = 0 ∧ rrMax .w3 = 16777215 ∧
    rrMin .w4 = -2147483648 ∧ rrMax .w4 = 2147483647) ∧
  (∀ (fmt : Fmt) (w : Width) (neg : Bool), (classify fmt .nan w).1 = .inv ∧ (classify fmt (.inf neg) w).1 = .inv) ∧
  (∀ (fmt : Fmt) (w : Width) (neg : Bool) (n : Nat),
    (classify fmt (.finite neg n) w).2 = fmt.trunc neg n ∧
    ((classify fmt (.finite neg n) w).1 = .none ↔ rrMin w ≤ fmt.trunc neg n ∧ fmt.trunc neg n ≤ rrMax w) ∧
    ((classify fmt (.finite neg n) w).1 = .sgn ↔
      w ≠ .w4 ∧ -2147483648 ≤ fmt.trunc neg n ∧ fmt.trunc neg n < 0) ∧
    ((classify fmt (.finite neg n) w).1 = .ovf ↔
      fmt.trunc neg n < -2147483648 ∨ rrMax w < fmt.trunc neg n))

/-- R97 with R94 and R95: what Quantize emits under each policy, from the event and `t` of the rounded product; with no
event it is the same under all three. -/
def Obligations.QuantizeData : Prop :=
  ∀ (x : FloatVal) (fmt : Fmt) (w : Width) (sc : Scale) (p : FloatVal) (ev : Event) (t : Int),
    p = fmt.scaledProduct x sc.factor → classify fmt p w = (ev, t) →
      (ev = .none → ∀ pol, quantize x fmt w sc pol = (.none, some (t % (2 : Int) ^ (8 * w.bytes)).toNat)) ∧
      (ev = .ovf ∨ ev = .sgn →
        quantize x fmt w sc .wrap = (ev, some (t % (2 : Int) ^ (8 * w.bytes)).toNat) ∧
        quantize x fmt w sc .clamp = (ev, some (max (rrMin w) (min t (rrMax w)) % (2 : Int) ^ (8 * w.bytes)).toNat)) ∧
      (ev = .inv →
        quantize x fmt w sc .wrap = (.inv, some 0) ∧
        (p = .nan → quantize x fmt w sc .clamp = (.inv, some 0)) ∧
        (p = .inf false → quantize x fmt w sc .clamp = (.inv, some (rrMax w % (2 : Int) ^ (8 * w.bytes)).toNat)) ∧
        (p = .inf true → quantize x fmt w sc .clamp = (.inv, some (rrMin w % (2 : Int) ^ (8 * w.bytes)).toNat))) ∧
      (ev ≠ .none → quantize x fmt w sc .reject = (ev, none))

/-- R96: the group of `k` is `k mod 2^(8w)`, and its byte `j` is the 32-bit two's-complement `k` shifted right by
`8*(w-1-j)` and masked to 8 bits. -/
def Obligations.ByteGroupIsBigEndian : Prop :=
  ∀ (k : Int) (w : Width), ((groupOf k w : Nat) : Int) = k % (2 : Int) ^ (8 * w.bytes) ∧
    ∀ j, j < w.bytes → (groupOf k w >>> (8 * (w.bytes - 1 - j))) % 256 =
      (((BitVec.ofInt 32 k) >>> (8 * (w.bytes - 1 - j))).setWidth 8).toNat

/-- R98: the accumulator is `sext_32(zext_32(A))` of the group's low 8w bits; at w = 2 and 3 that is `A`, never
negative, and at w = 4 it is `A - 2^32` when the first byte is 0x80 or more. -/
def Obligations.DequantizeAccumulator : Prop :=
  ∀ (g : Nat) (w : Width),
    accumulator g w = (BitVec.ofNat 32 (g % 2 ^ (8 * w.bytes))).toInt ∧
    (w ≠ .w4 → accumulator g w = ((g % 2 ^ (8 * w.bytes) : Nat) : Int)) ∧
    (w = .w4 → accumulator g w =
      if 0x80 ≤ g % 2 ^ 32 / 2 ^ 24 then ((g % 2 ^ 32 : Nat) : Int) - 2 ^ 32 else ((g % 2 ^ 32 : Nat) : Int))

/-- R99 and R102's corner cases: Dequantize has the magnitude of `|k| / s` rounded once to its format, `k` being the
accumulator and 2^unitExp units being 1; it is a finite value, +0.0 for a zero accumulator, and negative exactly when the
accumulator is, so never at w = 2 or 3. -/
def Obligations.DequantizeFiniteAndSigned : Prop :=
  ∀ (g : Nat) (w : Width) (sc : Scale) (fmt : Fmt),
    dequantize g w sc fmt < 2 ^ fmt.bits ∧
    dequantize g w sc fmt % 2 ^ (fmt.bits - 1) =
      fmt.roundMag ((accumulator g w).natAbs * 2 ^ fmt.unitExp) sc.factor ∧
    dequantize g w sc fmt % 2 ^ (fmt.bits - 1) < fmt.infMag ∧
    (dequantize g w sc fmt).testBit (fmt.bits - 1) = decide (accumulator g w < 0) ∧
    (w ≠ .w4 → (dequantize g w sc fmt).testBit (fmt.bits - 1) = false) ∧
    (accumulator g w = 0 → dequantize g w sc fmt = 0)

/-- R103: with no event, dequantizing the group gives `RNE_fmt(t / s)`, the truncated product over the scale, rounded
once, under every policy. -/
def Obligations.QuantizeDequantizeRoundTrip : Prop :=
  ∀ (x : FloatVal) (fmt : Fmt) (w : Width) (sc : Scale) (pol : Policy) (t : Int),
    classify fmt (fmt.scaledProduct x sc.factor) w = (.none, t) →
      ∃ g, quantize x fmt w sc pol = (.none, some g) ∧ dequantize g w sc fmt = fmt.roundedQuotient t sc.factor

/-- R100: the sign defect. At w = 2 and 3 the group of any negative `t` decodes as `t mod 2^(8w)`, never negative, which is
R100's `t + 2^(8w)`, positive, wherever `t` is above -2^(8w); at w = 4 every integer of RR(4), negative ones too, decodes as
itself. -/
def Obligations.SignDefectKept : Prop :=
  (∀ (w : Width) (sc : Scale) (fmt : Fmt) (t : Int), w ≠ .w4 → t < 0 →
    0 ≤ t % (2 : Int) ^ (8 * w.bytes) ∧
    dequantize (groupOf t w) w sc fmt = fmt.roundedQuotient (t % (2 : Int) ^ (8 * w.bytes)) sc.factor ∧
    (-(2 : Int) ^ (8 * w.bytes) < t → 0 < t + (2 : Int) ^ (8 * w.bytes) ∧
      dequantize (groupOf t w) w sc fmt = fmt.roundedQuotient (t + (2 : Int) ^ (8 * w.bytes)) sc.factor)) ∧
  (∀ (sc : Scale) (fmt : Fmt) (t : Int), -2147483648 ≤ t → t ≤ 2147483647 →
    dequantize (groupOf t .w4) .w4 sc fmt = fmt.roundedQuotient t sc.factor)

/-! ## The commands -/

/-- R140: NOP has no effect of its own. -/
def Obligations.NopResult : Prop := ∀ s : State, exec .nop s = .next s

/-- R101 with R155 to R157: QENC at each width, scale and format. Its sticky flag is set; QB takes the group, if there is
one; and only an event under CLAMP or REJECT is reported, with EFIELD 0x1F. Nothing else changes. -/
def Obligations.QencResult : Prop :=
  ∀ (w : Width) (sc : Scale) (fmt : Fmt) (s : State) (ev : Event) (g : Option Nat),
    quantize (match fmt with | .f64 => Fmt.f64.val s.qin.toNat | .f32 => Fmt.f32.val (s.qin.extractLsb' 0 32).toNat)
      fmt w sc s.policy = (ev, g) →
    exec (qencOf w sc fmt) s = .next { s with
      qb := match g with | some v => BitVec.ofNat 32 v | none => s.qb
      status := { s.status with
        sOvf := s.status.sOvf || ev == .ovf
        sSgn := s.status.sSgn || ev == .sgn
        sInv := s.status.sInv || ev == .inv
        err := if ev ≠ .none ∧ s.policy ≠ .wrap then true else s.status.err
        errcode := if ev ≠ .none ∧ s.policy ≠ .wrap
          then (match ev with | .none => .none | .ovf => .qovf | .sgn => .qsign | .inv => .qinv) else s.status.errcode
        efield := if ev ≠ .none ∧ s.policy ≠ .wrap then 0x1F#5 else s.status.efield } }

/-- R102: QDEC at each width, scale and format writes QOUT, zero-extended for F32, and nothing else: no flag, no error. -/
def Obligations.QdecResult : Prop :=
  ∀ (w : Width) (sc : Scale) (fmt : Fmt) (s : State),
    exec (qdecOf w sc fmt) s = .next { s with
      qout := BitVec.ofNat 64
        (fmt.roundedQuotient (accumulator (s.qb.toNat % 2 ^ (8 * w.bytes)) w) sc.factor) } ∧
    (fmt = .f32 →
      fmt.roundedQuotient (accumulator (s.qb.toNat % 2 ^ (8 * w.bytes)) w) sc.factor < 2 ^ 32)

/-- R90 and R102: an F32 QENC does not depend on QIN[63:32], and QDEC at width w does not depend on QB[31:8w]. -/
def Obligations.OperandBitsIgnored : Prop :=
  (∀ (w : Width) (sc : Scale) (s t : State) (v : DWord),
    v.extractLsb' 0 32 = s.qin.extractLsb' 0 32 → exec (qencOf w sc .f32) s = .next t →
      exec (qencOf w sc .f32) { s with qin := v } = .next { t with qin := v }) ∧
  (∀ (w : Width) (sc : Scale) (fmt : Fmt) (s t : State) (v : Word),
    v.toNat % 2 ^ (8 * w.bytes) = s.qb.toNat % 2 ^ (8 * w.bytes) → exec (qdecOf w sc fmt) s = .next t →
      exec (qdecOf w sc fmt) { s with qb := v } = .next { t with qb := v })

/-- R121: the table's offsets are cumulative from 0, its widths add to 42, and every byte of the frame belongs to
exactly one field. -/
def Obligations.FieldTableLayout : Prop :=
  fieldTable.length = 19 ∧ fieldTable.map Field.off = [0, 2, 5, 8, 12, 16, 18, 20, 22, 24, 26, 28, 30, 32, 34, 35, 36, 37, 38] ∧
  (∀ i : Fin 18, (fieldTable.map Field.off).getD (i + 1) 0 =
    (fieldTable.map Field.off).getD i 0 + (fieldTable.map Field.bytes).getD i 0) ∧
  (fieldTable.map Field.bytes).sum = 42 ∧
  (∀ a : Fin 42, (fieldTable.filter (fun f => f.off ≤ (a : Nat) ∧ (a : Nat) < f.off + f.bytes)).length = 1)

/-- R122: FENC quantizes DIN[i] as binary64 and FIN[j] as binary32, with the table's width and scale and CTRL.POLICY,
and takes BIN and CIN as bit patterns. -/
def Obligations.FencOperands : Prop :=
  ∀ s : State,
    (fieldTable.map (fieldResult s)) =
      [quantize (Fmt.f64.val (s.din[0]).toNat) .f64 .w2 .s100 s.policy,
       quantize (Fmt.f64.val (s.din[1]).toNat) .f64 .w3 .s100 s.policy,
       quantize (Fmt.f64.val (s.din[2]).toNat) .f64 .w3 .s100 s.policy,
       quantize (Fmt.f64.val (s.din[3]).toNat) .f64 .w4 .s1M s.policy,
       quantize (Fmt.f64.val (s.din[4]).toNat) .f64 .w4 .s1M s.policy,
       quantize (Fmt.f64.val (s.din[5]).toNat) .f64 .w2 .s100 s.policy,
       quantize (Fmt.f64.val (s.din[6]).toNat) .f64 .w2 .s100 s.policy,
       quantize (Fmt.f64.val (s.din[7]).toNat) .f64 .w2 .s100 s.policy,
       quantize (Fmt.f32.val (s.fin[0]).toNat) .f32 .w2 .s100 s.policy,
       quantize (Fmt.f32.val (s.fin[1]).toNat) .f32 .w2 .s100 s.policy,
       quantize (Fmt.f32.val (s.fin[2]).toNat) .f32 .w2 .s100 s.policy,
       quantize (Fmt.f32.val (s.fin[3]).toNat) .f32 .w2 .s100 s.policy,
       quantize (Fmt.f32.val (s.fin[4]).toNat) .f32 .w2 .s100 s.policy,
       quantize (Fmt.f32.val (s.fin[5]).toNat) .f32 .w2 .s100 s.policy,
       (.none, some (s.bin[0]).toNat), (.none, some (s.bin[1]).toNat), (.none, some (s.bin[2]).toNat),
       (.none, some (s.bin[3]).toNat), (.none, some s.cin.toNat)]

/-- R123 where the frame is written: every field's group stands at its offset, FLEN.LEN is 42, no byte outside 0..41
and no register but FRAME, FLEN and STATUS changes, and under WRAP, or with no event, nothing is reported. -/
def Obligations.FencWritesWholeFrame : Prop :=
  ∀ s : State, s.fencWrites →
    ∃ (fr : Memory) (st : Status),
      exec .fenc s = .next { s with frame := fr, flen := 42#8, status := st } ∧
      (∀ f ∈ fieldTable, ∃ g, (fieldResult s f).2 = some g ∧ fr.readGroup f.off f.bytes = g) ∧
      (∀ a, 42 ≤ a → fr.read a = s.frame.read a) ∧
      (s.policy = .wrap ∨ (∀ f ∈ fieldTable, (fieldResult s f).1 = .none) →
        st.err = s.status.err ∧ st.errcode = s.status.errcode ∧ st.efield = s.status.efield)

/-- R157 for FENC: under REJECT an event in any field leaves FRAME and FLEN, and every other register but STATUS, as
they were, and is reported. -/
def Obligations.FencRejectWritesNothing : Prop :=
  ∀ s : State, s.policy = .reject → (∃ f ∈ fieldTable, (fieldResult s f).1 ≠ .none) →
    ∃ st : Status, exec .fenc s = .next { s with status := st } ∧ st.err = true ∧ st.errcode ≠ .none

/-- R124: all fields are classified and their sticky flags set under every policy, and no other flag changes but those
of a report. -/
def Obligations.FencClassifiesEveryField : Prop :=
  ∀ s : State, ∃ t, exec .fenc s = .next t ∧
    (t.status.sOvf = true ↔ s.status.sOvf = true ∨ ∃ f ∈ fieldTable, (fieldResult s f).1 = .ovf) ∧
    (t.status.sSgn = true ↔ s.status.sSgn = true ∨ ∃ f ∈ fieldTable, (fieldResult s f).1 = .sgn) ∧
    (t.status.sInv = true ↔ s.status.sInv = true ∨ ∃ f ∈ fieldTable, (fieldResult s f).1 = .inv) ∧
    t.status.sFlen = s.status.sFlen ∧ t.status.sIll = s.status.sIll ∧ t.status.sHaz = s.status.sHaz ∧
    t.status.busy = s.status.busy ∧ t.status.done = s.status.done

/-- R158's third point: under CLAMP and REJECT FENC reports the event of the lowest-index field that has one. -/
def Obligations.FencReportsLowestField : Prop :=
  ∀ (s : State) (i : Nat) (f : Field),
    s.policy ≠ .wrap → fieldTable[i]? = some f → (fieldResult s f).1 ≠ .none →
    (∀ (j : Nat) (f' : Field), j < i → fieldTable[j]? = some f' → (fieldResult s f').1 = .none) →
      i ≤ 13 ∧ ∃ t, exec .fenc s = .next t ∧ t.status.err = true ∧ t.status.efield = BitVec.ofNat 5 i ∧
        t.status.errcode = (fieldResult s f).1.code

/-- R127: field isolation. Where two FENC commands write the frame under the same policy and differ in one field's
input, their frames agree at every byte outside that field. -/
def Obligations.FencFieldIsolation : Prop :=
  ∀ (s s' : State) (f : Field), f ∈ fieldTable → s.policy = s'.policy →
    (∀ f' ∈ fieldTable, f' ≠ f → f'.slot.input s = f'.slot.input s') → s.fencWrites → s'.fencWrites →
      ∃ t t', exec .fenc s = .next t ∧ exec .fenc s' = .next t' ∧
        ∀ a, a < 42 → (a < f.off ∨ f.off + f.bytes ≤ a) → t.frame.read a = t'.frame.read a

/-- R128: FENC then FDEC gives back every raw byte and the counter, and `RNE_fmt(t_i / s_i)` for a numeric field with no
event. -/
def Obligations.FencFdecRoundTrip : Prop :=
  ∀ s : State, s.fencWrites → ∃ t u, exec .fenc s = .next t ∧ exec .fdec t = .next u ∧
    u.bout = s.bin ∧ u.cout = s.cin ∧
    (∀ (i : Fin 8) (w : Width) (sc : Scale) (off : Nat) (k : Int),
      (⟨.d i, .quantized w sc .f64, off⟩ : Field) ∈ fieldTable →
      classify .f64 (Fmt.f64.scaledProduct (Fmt.f64.val s.din[i].toNat) sc.factor) w = (.none, k) →
        u.dout[i] = BitVec.ofNat 64 (Fmt.f64.roundedQuotient k sc.factor)) ∧
    (∀ (j : Fin 6) (w : Width) (sc : Scale) (off : Nat) (k : Int),
      (⟨.f j, .quantized w sc .f32, off⟩ : Field) ∈ fieldTable →
      classify .f32 (Fmt.f32.scaledProduct (Fmt.f32.val s.fin[j].toNat) sc.factor) w = (.none, k) →
        u.fout[j] = BitVec.ofNat 32 (Fmt.f32.roundedQuotient k sc.factor))

/-- R125 and R126: with FLEN.LEN = 42 FDEC writes DOUT, FOUT, BOUT and COUT from their groups and nothing else; with any
other length it writes none of them, sets S_FLEN, and reports FLEN with EFIELD 0x1F. -/
def Obligations.FdecResult : Prop :=
  ∀ s : State,
    (s.flen = 42#8 → exec .fdec s = .next { s with
      dout := #v[BitVec.ofNat 64 (dequantize (s.frame.readGroup 0 2) .w2 .s100 .f64),
        BitVec.ofNat 64 (dequantize (s.frame.readGroup 2 3) .w3 .s100 .f64),
        BitVec.ofNat 64 (dequantize (s.frame.readGroup 5 3) .w3 .s100 .f64),
        BitVec.ofNat 64 (dequantize (s.frame.readGroup 8 4) .w4 .s1M .f64),
        BitVec.ofNat 64 (dequantize (s.frame.readGroup 12 4) .w4 .s1M .f64),
        BitVec.ofNat 64 (dequantize (s.frame.readGroup 16 2) .w2 .s100 .f64),
        BitVec.ofNat 64 (dequantize (s.frame.readGroup 18 2) .w2 .s100 .f64),
        BitVec.ofNat 64 (dequantize (s.frame.readGroup 20 2) .w2 .s100 .f64)]
      fout := #v[BitVec.ofNat 32 (dequantize (s.frame.readGroup 22 2) .w2 .s100 .f32),
        BitVec.ofNat 32 (dequantize (s.frame.readGroup 24 2) .w2 .s100 .f32),
        BitVec.ofNat 32 (dequantize (s.frame.readGroup 26 2) .w2 .s100 .f32),
        BitVec.ofNat 32 (dequantize (s.frame.readGroup 28 2) .w2 .s100 .f32),
        BitVec.ofNat 32 (dequantize (s.frame.readGroup 30 2) .w2 .s100 .f32),
        BitVec.ofNat 32 (dequantize (s.frame.readGroup 32 2) .w2 .s100 .f32)]
      bout := #v[s.frame.read 34, s.frame.read 35, s.frame.read 36, s.frame.read 37]
      cout := s.frame.read 38 ++ s.frame.read 39 ++ s.frame.read 40 ++ s.frame.read 41 }) ∧
    (s.flen ≠ 42#8 → exec .fdec s = .next { s with
      status := { s.status with err := true, errcode := .flen, efield := 0x1F#5, sFlen := true } })

/-- R125: FDEC changes neither FRAME nor FLEN, so a second FDEC decodes the same frame again to the same state. -/
def Obligations.FdecRepeats : Prop :=
  ∀ s : State, ∃ t, exec .fdec s = .next t ∧ exec .fdec t = .next t ∧ t.flen = s.flen ∧ t.frame = s.frame

/-! ## Whole-machine rules -/

/-- The frame of every command: the registers each may write, and that every other register, every other flag and every
other byte of FRAME is as it was. QENC writes QB, QDEC QOUT, FENC FRAME and FLEN, FDEC the output registers (R180). -/
def Obligations.CommandFrames : Prop :=
  ∀ (i : Instr) (s t : State), exec i s = .next t →
    (t.policy = s.policy ∧ t.pend = s.pend ∧ t.qin = s.qin ∧ t.din = s.din ∧ t.fin = s.fin ∧ t.bin = s.bin ∧
      t.cin = s.cin ∧ t.resetLine = s.resetLine ∧ t.turns = s.turns ∧ t.reads = s.reads ∧ t.draws = s.draws) ∧
    (t.status.busy = s.status.busy ∧ t.status.done = s.status.done ∧ t.status.sHaz = s.status.sHaz ∧
      t.status.sIll = s.status.sIll) ∧
    (i ≠ .fdec → t.dout = s.dout ∧ t.fout = s.fout ∧ t.bout = s.bout ∧ t.cout = s.cout ∧
      t.status.sFlen = s.status.sFlen) ∧
    (i ≠ .fenc → t.flen = s.flen ∧ ∀ a, t.frame.read a = s.frame.read a) ∧
    (i = .fenc → ∀ a, 42 ≤ a → t.frame.read a = s.frame.read a) ∧
    ((∀ w sc fmt, i ≠ qencOf w sc fmt) → t.qb = s.qb) ∧
    ((∀ w sc fmt, i ≠ qdecOf w sc fmt) → t.qout = s.qout) ∧
    (i = .nop ∨ (∃ w sc fmt, i = qdecOf w sc fmt) → t.status = s.status) ∧
    (i = .fdec → t.status.sOvf = s.status.sOvf ∧ t.status.sSgn = s.status.sSgn ∧ t.status.sInv = s.status.sInv)

/-- R152: which command can report which error. Every completed word reports ILL exactly when it is illegal; NOP and QDEC
report nothing else, QENC and FENC only QOVF, QSIGN and QINV, FDEC only FLEN. -/
def Obligations.CommandErrorRepertoire : Prop :=
  ∀ (s t : State) (ts : List Turn), s.Inv → s.status.busy = true → s.engineNext ts → step s = .next t →
    (Legal s.pend = false ↔ t.status.errcode = .ill) ∧
    (∀ i, decode s.pend = .ok i →
      (i = .nop ∨ (∃ w sc fmt, i = qdecOf w sc fmt) → t.status.errcode = .none) ∧
      (i = .fenc ∨ (∃ w sc fmt, i = qencOf w sc fmt) →
        t.status.errcode = .none ∨ t.status.errcode = .qovf ∨ t.status.errcode = .qsign ∨ t.status.errcode = .qinv) ∧
      (i = .fdec → t.status.errcode = .none ∨ t.status.errcode = .flen))

/-- R159: errors are precise. A completed command that reports ILL or FLEN, or any error under REJECT, has changed no
result register. -/
def Obligations.ErrorsArePrecise : Prop :=
  ∀ (s t : State) (ts : List Turn), s.Inv → s.status.busy = true → s.engineNext ts → step s = .next t →
    t.status.err = true → (t.status.errcode = .ill ∨ t.status.errcode = .flen ∨ s.policy = .reject) →
      t.qb = s.qb ∧ t.qout = s.qout ∧ t.frame = s.frame ∧ t.flen = s.flen ∧
      t.dout = s.dout ∧ t.fout = s.fout ∧ t.bout = s.bout ∧ t.cout = s.cout

/-- R27: a sticky bit of STATUS is cleared only by a Host write of 1 to it while BUSY = 0, or by reset. -/
def Obligations.StickyBitsClearedOnlyByHost : Prop :=
  ∀ (s t : State) (n : Nat), 16 ≤ n → n ≤ 21 → step s = .next t →
    s.status.toWord.getLsbD n = true → t.status.toWord.getLsbD n = false →
      (∃ ts, s.turns = .assertReset :: ts) ∨
      (s.status.busy = false ∧ ∃ d ts, s.turns = Turn.write 0x004 d :: ts ∧ d.getLsbD n = true)

/-- R24 and R25: BUSY is set by an accepted write to CMD alone, which clears DONE; it is cleared by the Engine step,
which sets DONE, and by reset, which clears DONE; no other move changes either. -/
def Obligations.BusyAndDoneTransitions : Prop :=
  ∀ (s t : State), step s = .next t →
    ((∃ c ts, s.status.busy = false ∧ s.turns = Turn.write 0x008 c :: ts) ∧
        t.status.busy = true ∧ t.status.done = false ∧ ∃ ts, s.turns = Turn.write 0x008 t.pend :: ts) ∨
    ((s.status.busy = true ∧ ∃ ts, s.engineNext ts) ∧ t.status.busy = false ∧ t.status.done = true) ∨
    ((∃ ts, s.turns = .assertReset :: ts) ∧ t.status.busy = false ∧ t.status.done = false) ∨
    (¬ (∃ c ts, s.status.busy = false ∧ s.turns = Turn.write 0x008 c :: ts) ∧
      ¬ (s.status.busy = true ∧ ∃ ts, s.engineNext ts) ∧ ¬ (∃ ts, s.turns = .assertReset :: ts) ∧
      t.status.busy = s.status.busy ∧ t.status.done = s.status.done)

/-- R26: ERR, ERRCODE and EFIELD are changed by a Host move only when it issues a command, which sets them to 0, 0 and
0x1F; a command that reports nothing leaves them so. -/
def Obligations.LastCommandFields : Prop :=
  (∀ (s t : State) (a : Access) (ts : List Turn), s.turns = .host a :: ts → step s = .next t →
    (t.status.err = s.status.err ∧ t.status.errcode = s.status.errcode ∧ t.status.efield = s.status.efield) ∨
    (s.status.busy = false ∧ t.status.busy = true ∧
      t.status.err = false ∧ t.status.errcode = .none ∧ t.status.efield = 0x1F#5)) ∧
  (∀ (s t : State) (ts : List Turn), s.Inv → s.status.busy = true → s.engineNext ts → step s = .next t →
    t.status.err = false → t.status.errcode = .none ∧ t.status.efield = 0x1F#5)

/-- The operands of a pending command cannot change between its issue and its execution (R176, R175): after any legal
Host transaction the Engine's step ends in the state it would have ended in before it, but for S_HAZ and what the
transaction itself left (the words read, the values drawn, the moves to come). -/
def Obligations.HostCannotDisturbPendingCommand : Prop :=
  ∀ (s t u : State) (a : Access) (ts : List Turn), s.status.busy = true → s.turns = .host a :: .engine :: ts →
    step s = .next t → step { s with turns := .engine :: ts } = .next u →
      step t = .next { u with
        reads := t.reads, draws := t.draws, status := { u.status with sHaz := t.status.sHaz } }
end

