-- ==== Sys2Proof/Laws/Memory.lean ====
section
/-! SUPPORT. The laws of FRAME: a read after a write, the canonical form, and byte groups. -/

namespace Sys2Proof.Machine

@[simp] theorem Memory.read_nil (a : Nat) : Memory.read [] a = unlistedByte := rfl

theorem Memory.read_cons (c : Host.Cell) (m : Memory) (a : Nat) :
    Memory.read (c :: m) a = if c.1 = a then c.2 else Memory.read m a := rfl

/-- Leaving out the entries of `a` leaves `a` unlisted and every other byte alone. -/
theorem Memory.read_filter_ne (m : Memory) (a a' : Nat) :
    Memory.read (m.filter (fun c => c.1 ≠ a)) a' = if a' = a then unlistedByte else Memory.read m a' := by
  induction m with
  | nil => simp
  | cons c m ih =>
    by_cases hc : c.1 = a
    · rw [List.filter_cons_of_neg (by simp [hc]), ih, Memory.read_cons]
      split
      · rfl
      · rw [if_neg (by omega)]
    · rw [List.filter_cons_of_pos (by simp [hc]), Memory.read_cons, Memory.read_cons, ih]
      split
      · rw [if_neg (by omega)]
      · rfl

/-- Listing an entry for an address that has none sets that byte alone. -/
theorem Memory.read_insert (m : Memory) (a a' : Nat) (b : Byte) (h : ∀ c ∈ m, c.1 ≠ a) :
    Memory.read (Memory.insert m a b) a' = if a' = a then b else Memory.read m a' := by
  induction m with
  | nil => simp [Memory.insert, Memory.read_cons, eq_comm]
  | cons c m ih =>
    have hc : c.1 ≠ a := h c (by simp)
    unfold Memory.insert
    split
    · rw [Memory.read_cons]
      by_cases ha : a' = a
      · simp [ha]
      · rw [if_neg (show ¬ (a, b).1 = a' from fun e => ha e.symm), if_neg ha]
    · rw [Memory.read_cons, Memory.read_cons, ih (fun c' h' => h c' (by simp [h']))]
      by_cases ha : a' = a
      · subst ha; simp [hc]
      · simp [ha]

theorem Memory.filter_ne_unlisted (m : Memory) (a : Nat) : ∀ c ∈ m.filter (fun c => c.1 ≠ a), c.1 ≠ a := by
  intro c hc; simpa using (List.mem_filter.1 hc).2

/-- A read after a write: the byte written, and every other byte as it was. -/
theorem Memory.read_write (m : Memory) (a a' : Nat) (b : Byte) :
    (m.write a b).read a' = if a' = a then b else m.read a' := by
  unfold Memory.write
  split
  · rename_i hb; rw [Memory.read_filter_ne, hb]
  · rw [Memory.read_insert _ _ _ _ (Memory.filter_ne_unlisted m a), Memory.read_filter_ne]
    split <;> rfl

@[simp] theorem Memory.read_write_same (m : Memory) (a : Nat) (b : Byte) : (m.write a b).read a = b := by
  simp [Memory.read_write]

theorem Memory.read_write_other (m : Memory) {a a' : Nat} (b : Byte) (h : a' ≠ a) :
    (m.write a b).read a' = m.read a' := by
  simp [Memory.read_write, h]

theorem Memory.mem_insert (m : Memory) (a : Nat) (b : Byte) (c : Host.Cell) :
    c ∈ Memory.insert m a b ↔ c = (a, b) ∨ c ∈ m := by
  induction m with
  | nil => simp [Memory.insert]
  | cons d m ih =>
    unfold Memory.insert
    split
    · simp
    · simp only [List.mem_cons, ih]; tauto

theorem Memory.insert_sorted (m : Memory) (a : Nat) (b : Byte) (hs : m.Pairwise (fun c c' => c.1 < c'.1))
    (h : ∀ c ∈ m, c.1 ≠ a) : (Memory.insert m a b).Pairwise (fun c c' => c.1 < c'.1) := by
  induction m with
  | nil => simp [Memory.insert]
  | cons d m ih =>
    obtain ⟨hd, hm⟩ := List.pairwise_cons.1 hs
    have hda : d.1 ≠ a := h d (by simp)
    unfold Memory.insert
    split
    · rename_i hlt
      refine List.pairwise_cons.2 ⟨fun c hc => ?_, hs⟩
      rcases List.mem_cons.1 hc with rfl | hc
      · exact hlt
      · exact Nat.lt_trans hlt (hd c hc)
    · refine List.pairwise_cons.2 ⟨fun c hc => ?_, ih hm (fun c hc => h c (by simp [hc]))⟩
      rcases (Memory.mem_insert m a b c).1 hc with rfl | hc
      · show d.1 < a; omega
      · exact hd c hc

/-- A write inside the 42 bytes keeps the canonical form. -/
theorem Memory.write_wf {m : Memory} (hm : m.wf) {a : Nat} (ha : a < frameLength) (b : Byte) : (m.write a b).wf := by
  obtain ⟨hs, hc⟩ := hm
  have hs' := hs.filter (fun c => decide (c.1 ≠ a))
  have hc' : ∀ c ∈ m.filter (fun c => c.1 ≠ a), c.1 < frameLength ∧ c.2 ≠ unlistedByte :=
    fun c h => hc c (List.mem_filter.1 h).1
  unfold Memory.write
  split
  · exact ⟨hs', hc'⟩
  · rename_i hb
    refine ⟨Memory.insert_sorted _ a b hs' (Memory.filter_ne_unlisted m a), fun c h => ?_⟩
    rcases (Memory.mem_insert _ a b c).1 h with rfl | h
    · exact ⟨ha, hb⟩
    · exact hc' c h

theorem Memory.nil_wf : Memory.wf [] := by simp [Memory.wf]

/-- `FrameWrite` sets the bytes of its group, most significant first, and no other. -/
theorem Memory.read_writeGroup (m : Memory) (off n g a : Nat) :
    (m.writeGroup off n g).read a =
      if off ≤ a ∧ a < off + n then BitVec.ofNat 8 (g >>> (8 * (off + n - 1 - a))) else m.read a := by
  induction n generalizing m off with
  | zero => rw [Memory.writeGroup, if_neg (by omega)]
  | succ n ih =>
    rw [Memory.writeGroup, ih, Memory.read_write]
    by_cases h1 : off + 1 ≤ a ∧ a < off + 1 + n
    · rw [if_pos h1, if_pos (by omega), show off + 1 + n - 1 - a = off + (n + 1) - 1 - a by omega]
    · rw [if_neg h1]
      by_cases h2 : a = off
      · rw [if_pos h2, if_pos (by omega), show off + (n + 1) - 1 - a = n by omega]
      · rw [if_neg h2, if_neg (by omega)]

theorem Memory.read_writeGroup_other (m : Memory) {off n a : Nat} (g : Nat) (h : a < off ∨ off + n ≤ a) :
    (m.writeGroup off n g).read a = m.read a := by
  rw [Memory.read_writeGroup, if_neg (by omega)]

/-- `FrameRead` depends on the bytes of its group alone. -/
theorem Memory.readGroup_congr {m m' : Memory} {off n : Nat} (h : ∀ a, off ≤ a → a < off + n → m.read a = m'.read a) :
    m.readGroup off n = m'.readGroup off n := by
  induction n generalizing off with
  | zero => rfl
  | succ n ih =>
    rw [Memory.readGroup, Memory.readGroup, h off (by omega) (by omega),
      ih (fun a h1 h2 => h a (by omega) (by omega))]

/-- A byte group read back is the group written, cut to its bytes (R13, R96). -/
theorem Memory.readGroup_writeGroup (m : Memory) (off n g : Nat) :
    (m.writeGroup off n g).readGroup off n = g % 2 ^ (8 * n) := by
  induction n generalizing m off with
  | zero => simp [Memory.readGroup, Nat.mod_one]
  | succ n ih =>
    rw [Memory.readGroup, Memory.writeGroup, ih, Memory.read_writeGroup_other _ _ (by omega),
      Memory.read_write_same, BitVec.toNat_ofNat, Nat.shiftRight_eq_div_pow]
    rw [show 8 * (n + 1) = 8 * n + 8 by omega, Nat.pow_add, Nat.mod_mul, Nat.add_comm,
      Nat.mul_comm (2 ^ (8 * n))]

theorem Memory.readGroup_lt (m : Memory) (off n : Nat) : m.readGroup off n < 2 ^ (8 * n) := by
  induction n generalizing off with
  | zero => simp [Memory.readGroup]
  | succ n ih =>
    have h1 := ih (off + 1)
    have h2 := (m.read off).isLt
    rw [Memory.readGroup, show 8 * (n + 1) = 8 + 8 * n by omega, Nat.pow_add]
    calc _ < (m.read off).toNat * 2 ^ (8 * n) + 2 ^ (8 * n) := by omega
      _ = ((m.read off).toNat + 1) * 2 ^ (8 * n) := by rw [Nat.add_mul, Nat.one_mul]
      _ ≤ 2 ^ 8 * 2 ^ (8 * n) := Nat.mul_le_mul_right _ h2

/-- `FrameWrite` inside the 42 bytes keeps the canonical form. -/
theorem Memory.writeGroup_wf {m : Memory} (hm : m.wf) {off n : Nat} (h : off + n ≤ frameLength) (g : Nat) :
    (m.writeGroup off n g).wf := by
  induction n generalizing m off with
  | zero => exact hm
  | succ n ih => exact ih (Memory.write_wf hm (by omega) _) (by omega)

/-- One byte read as a group (R13). -/
theorem Memory.readGroup_one (m : Memory) (a : Nat) : BitVec.ofNat 8 (m.readGroup a 1) = m.read a := by
  simp [Memory.readGroup]

/-- Four bytes read as a group, most significant first (R13). -/
theorem Memory.readGroup_four (m : Memory) (a : Nat) : BitVec.ofNat 32 (m.readGroup a 4) = m.read a ++ m.read (a+1) ++ m.read (a+2) ++ m.read (a+3) := by
  apply BitVec.eq_of_toNat_eq
  have h0 := (m.read a).isLt
  have h1 := (m.read (a+1)).isLt
  have h2 := (m.read (a+2)).isLt
  have h3 := (m.read (a+3)).isLt
  simp only [BitVec.toNat_append, Memory.readGroup, BitVec.toNat_ofNat, show a + 1 + 1 = a + 2 from rfl, show a + 2 + 1 = a + 3 from rfl]
  rw [← Nat.shiftLeft_add_eq_or_of_lt h1, ← Nat.shiftLeft_add_eq_or_of_lt h2, ← Nat.shiftLeft_add_eq_or_of_lt h3]
  simp only [Nat.shiftLeft_eq]
  omega

end Sys2Proof.Machine
end

