-- ==== Sys2Proof/Laws/State.lean ====
section
/-! SUPPORT. One lemma per field per update of State and of STATUS, true by unfolding: what each update sets, and that
it leaves every other field. -/

namespace Sys2Proof.Machine

section Updates

variable (s : State) (st : Status)

/-! `State.withStatus` -/
@[simp] theorem State.withStatus_policy (st : Status) : (s.withStatus st).policy = s.policy := rfl
@[simp] theorem State.withStatus_status (st : Status) : (s.withStatus st).status = st := rfl
@[simp] theorem State.withStatus_pend (st : Status) : (s.withStatus st).pend = s.pend := rfl
@[simp] theorem State.withStatus_flen (st : Status) : (s.withStatus st).flen = s.flen := rfl
@[simp] theorem State.withStatus_qin (st : Status) : (s.withStatus st).qin = s.qin := rfl
@[simp] theorem State.withStatus_qb (st : Status) : (s.withStatus st).qb = s.qb := rfl
@[simp] theorem State.withStatus_qout (st : Status) : (s.withStatus st).qout = s.qout := rfl
@[simp] theorem State.withStatus_frame (st : Status) : (s.withStatus st).frame = s.frame := rfl
@[simp] theorem State.withStatus_din (st : Status) : (s.withStatus st).din = s.din := rfl
@[simp] theorem State.withStatus_fin (st : Status) : (s.withStatus st).fin = s.fin := rfl
@[simp] theorem State.withStatus_bin (st : Status) : (s.withStatus st).bin = s.bin := rfl
@[simp] theorem State.withStatus_cin (st : Status) : (s.withStatus st).cin = s.cin := rfl
@[simp] theorem State.withStatus_dout (st : Status) : (s.withStatus st).dout = s.dout := rfl
@[simp] theorem State.withStatus_fout (st : Status) : (s.withStatus st).fout = s.fout := rfl
@[simp] theorem State.withStatus_bout (st : Status) : (s.withStatus st).bout = s.bout := rfl
@[simp] theorem State.withStatus_cout (st : Status) : (s.withStatus st).cout = s.cout := rfl
@[simp] theorem State.withStatus_resetLine (st : Status) : (s.withStatus st).resetLine = s.resetLine := rfl
@[simp] theorem State.withStatus_turns (st : Status) : (s.withStatus st).turns = s.turns := rfl
@[simp] theorem State.withStatus_reads (st : Status) : (s.withStatus st).reads = s.reads := rfl
@[simp] theorem State.withStatus_draws (st : Status) : (s.withStatus st).draws = s.draws := rfl

/-! `State.issue` -/
@[simp] theorem State.issue_policy (c : Word) : (s.issue c).policy = s.policy := rfl
@[simp] theorem State.issue_status (c : Word) : (s.issue c).status = s.status.issue := rfl
@[simp] theorem State.issue_pend (c : Word) : (s.issue c).pend = c := rfl
@[simp] theorem State.issue_flen (c : Word) : (s.issue c).flen = s.flen := rfl
@[simp] theorem State.issue_qin (c : Word) : (s.issue c).qin = s.qin := rfl
@[simp] theorem State.issue_qb (c : Word) : (s.issue c).qb = s.qb := rfl
@[simp] theorem State.issue_qout (c : Word) : (s.issue c).qout = s.qout := rfl
@[simp] theorem State.issue_frame (c : Word) : (s.issue c).frame = s.frame := rfl
@[simp] theorem State.issue_din (c : Word) : (s.issue c).din = s.din := rfl
@[simp] theorem State.issue_fin (c : Word) : (s.issue c).fin = s.fin := rfl
@[simp] theorem State.issue_bin (c : Word) : (s.issue c).bin = s.bin := rfl
@[simp] theorem State.issue_cin (c : Word) : (s.issue c).cin = s.cin := rfl
@[simp] theorem State.issue_dout (c : Word) : (s.issue c).dout = s.dout := rfl
@[simp] theorem State.issue_fout (c : Word) : (s.issue c).fout = s.fout := rfl
@[simp] theorem State.issue_bout (c : Word) : (s.issue c).bout = s.bout := rfl
@[simp] theorem State.issue_cout (c : Word) : (s.issue c).cout = s.cout := rfl
@[simp] theorem State.issue_resetLine (c : Word) : (s.issue c).resetLine = s.resetLine := rfl
@[simp] theorem State.issue_turns (c : Word) : (s.issue c).turns = s.turns := rfl
@[simp] theorem State.issue_reads (c : Word) : (s.issue c).reads = s.reads := rfl
@[simp] theorem State.issue_draws (c : Word) : (s.issue c).draws = s.draws := rfl

/-! `State.complete` -/
@[simp] theorem State.complete_policy : s.complete.policy = s.policy := rfl
@[simp] theorem State.complete_status : s.complete.status = s.status.complete := rfl
@[simp] theorem State.complete_pend : s.complete.pend = s.pend := rfl
@[simp] theorem State.complete_flen : s.complete.flen = s.flen := rfl
@[simp] theorem State.complete_qin : s.complete.qin = s.qin := rfl
@[simp] theorem State.complete_qb : s.complete.qb = s.qb := rfl
@[simp] theorem State.complete_qout : s.complete.qout = s.qout := rfl
@[simp] theorem State.complete_frame : s.complete.frame = s.frame := rfl
@[simp] theorem State.complete_din : s.complete.din = s.din := rfl
@[simp] theorem State.complete_fin : s.complete.fin = s.fin := rfl
@[simp] theorem State.complete_bin : s.complete.bin = s.bin := rfl
@[simp] theorem State.complete_cin : s.complete.cin = s.cin := rfl
@[simp] theorem State.complete_dout : s.complete.dout = s.dout := rfl
@[simp] theorem State.complete_fout : s.complete.fout = s.fout := rfl
@[simp] theorem State.complete_bout : s.complete.bout = s.bout := rfl
@[simp] theorem State.complete_cout : s.complete.cout = s.cout := rfl
@[simp] theorem State.complete_resetLine : s.complete.resetLine = s.resetLine := rfl
@[simp] theorem State.complete_turns : s.complete.turns = s.turns := rfl
@[simp] theorem State.complete_reads : s.complete.reads = s.reads := rfl
@[simp] theorem State.complete_draws : s.complete.draws = s.draws := rfl

/-! `State.raiseError` -/
@[simp] theorem State.raiseError_policy (code : ErrCode) (field : BitVec 5) : (s.raiseError code field).policy = s.policy := rfl
@[simp] theorem State.raiseError_status (code : ErrCode) (field : BitVec 5) : (s.raiseError code field).status = s.status.raise code field := rfl
@[simp] theorem State.raiseError_pend (code : ErrCode) (field : BitVec 5) : (s.raiseError code field).pend = s.pend := rfl
@[simp] theorem State.raiseError_flen (code : ErrCode) (field : BitVec 5) : (s.raiseError code field).flen = s.flen := rfl
@[simp] theorem State.raiseError_qin (code : ErrCode) (field : BitVec 5) : (s.raiseError code field).qin = s.qin := rfl
@[simp] theorem State.raiseError_qb (code : ErrCode) (field : BitVec 5) : (s.raiseError code field).qb = s.qb := rfl
@[simp] theorem State.raiseError_qout (code : ErrCode) (field : BitVec 5) : (s.raiseError code field).qout = s.qout := rfl
@[simp] theorem State.raiseError_frame (code : ErrCode) (field : BitVec 5) : (s.raiseError code field).frame = s.frame := rfl
@[simp] theorem State.raiseError_din (code : ErrCode) (field : BitVec 5) : (s.raiseError code field).din = s.din := rfl
@[simp] theorem State.raiseError_fin (code : ErrCode) (field : BitVec 5) : (s.raiseError code field).fin = s.fin := rfl
@[simp] theorem State.raiseError_bin (code : ErrCode) (field : BitVec 5) : (s.raiseError code field).bin = s.bin := rfl
@[simp] theorem State.raiseError_cin (code : ErrCode) (field : BitVec 5) : (s.raiseError code field).cin = s.cin := rfl
@[simp] theorem State.raiseError_dout (code : ErrCode) (field : BitVec 5) : (s.raiseError code field).dout = s.dout := rfl
@[simp] theorem State.raiseError_fout (code : ErrCode) (field : BitVec 5) : (s.raiseError code field).fout = s.fout := rfl
@[simp] theorem State.raiseError_bout (code : ErrCode) (field : BitVec 5) : (s.raiseError code field).bout = s.bout := rfl
@[simp] theorem State.raiseError_cout (code : ErrCode) (field : BitVec 5) : (s.raiseError code field).cout = s.cout := rfl
@[simp] theorem State.raiseError_resetLine (code : ErrCode) (field : BitVec 5) : (s.raiseError code field).resetLine = s.resetLine := rfl
@[simp] theorem State.raiseError_turns (code : ErrCode) (field : BitVec 5) : (s.raiseError code field).turns = s.turns := rfl
@[simp] theorem State.raiseError_reads (code : ErrCode) (field : BitVec 5) : (s.raiseError code field).reads = s.reads := rfl
@[simp] theorem State.raiseError_draws (code : ErrCode) (field : BitVec 5) : (s.raiseError code field).draws = s.draws := rfl

/-! `State.hazard` -/
@[simp] theorem State.hazard_policy : s.hazard.policy = s.policy := rfl
@[simp] theorem State.hazard_status : s.hazard.status = s.status.hazard := rfl
@[simp] theorem State.hazard_pend : s.hazard.pend = s.pend := rfl
@[simp] theorem State.hazard_flen : s.hazard.flen = s.flen := rfl
@[simp] theorem State.hazard_qin : s.hazard.qin = s.qin := rfl
@[simp] theorem State.hazard_qb : s.hazard.qb = s.qb := rfl
@[simp] theorem State.hazard_qout : s.hazard.qout = s.qout := rfl
@[simp] theorem State.hazard_frame : s.hazard.frame = s.frame := rfl
@[simp] theorem State.hazard_din : s.hazard.din = s.din := rfl
@[simp] theorem State.hazard_fin : s.hazard.fin = s.fin := rfl
@[simp] theorem State.hazard_bin : s.hazard.bin = s.bin := rfl
@[simp] theorem State.hazard_cin : s.hazard.cin = s.cin := rfl
@[simp] theorem State.hazard_dout : s.hazard.dout = s.dout := rfl
@[simp] theorem State.hazard_fout : s.hazard.fout = s.fout := rfl
@[simp] theorem State.hazard_bout : s.hazard.bout = s.bout := rfl
@[simp] theorem State.hazard_cout : s.hazard.cout = s.cout := rfl
@[simp] theorem State.hazard_resetLine : s.hazard.resetLine = s.resetLine := rfl
@[simp] theorem State.hazard_turns : s.hazard.turns = s.turns := rfl
@[simp] theorem State.hazard_reads : s.hazard.reads = s.reads := rfl
@[simp] theorem State.hazard_draws : s.hazard.draws = s.draws := rfl

/-! `State.withFrame` -/
@[simp] theorem State.withFrame_policy (m : Memory) (len : Byte) : (s.withFrame m len).policy = s.policy := rfl
@[simp] theorem State.withFrame_status (m : Memory) (len : Byte) : (s.withFrame m len).status = s.status := rfl
@[simp] theorem State.withFrame_pend (m : Memory) (len : Byte) : (s.withFrame m len).pend = s.pend := rfl
@[simp] theorem State.withFrame_flen (m : Memory) (len : Byte) : (s.withFrame m len).flen = len := rfl
@[simp] theorem State.withFrame_qin (m : Memory) (len : Byte) : (s.withFrame m len).qin = s.qin := rfl
@[simp] theorem State.withFrame_qb (m : Memory) (len : Byte) : (s.withFrame m len).qb = s.qb := rfl
@[simp] theorem State.withFrame_qout (m : Memory) (len : Byte) : (s.withFrame m len).qout = s.qout := rfl
@[simp] theorem State.withFrame_frame (m : Memory) (len : Byte) : (s.withFrame m len).frame = m := rfl
@[simp] theorem State.withFrame_din (m : Memory) (len : Byte) : (s.withFrame m len).din = s.din := rfl
@[simp] theorem State.withFrame_fin (m : Memory) (len : Byte) : (s.withFrame m len).fin = s.fin := rfl
@[simp] theorem State.withFrame_bin (m : Memory) (len : Byte) : (s.withFrame m len).bin = s.bin := rfl
@[simp] theorem State.withFrame_cin (m : Memory) (len : Byte) : (s.withFrame m len).cin = s.cin := rfl
@[simp] theorem State.withFrame_dout (m : Memory) (len : Byte) : (s.withFrame m len).dout = s.dout := rfl
@[simp] theorem State.withFrame_fout (m : Memory) (len : Byte) : (s.withFrame m len).fout = s.fout := rfl
@[simp] theorem State.withFrame_bout (m : Memory) (len : Byte) : (s.withFrame m len).bout = s.bout := rfl
@[simp] theorem State.withFrame_cout (m : Memory) (len : Byte) : (s.withFrame m len).cout = s.cout := rfl
@[simp] theorem State.withFrame_resetLine (m : Memory) (len : Byte) : (s.withFrame m len).resetLine = s.resetLine := rfl
@[simp] theorem State.withFrame_turns (m : Memory) (len : Byte) : (s.withFrame m len).turns = s.turns := rfl
@[simp] theorem State.withFrame_reads (m : Memory) (len : Byte) : (s.withFrame m len).reads = s.reads := rfl
@[simp] theorem State.withFrame_draws (m : Memory) (len : Byte) : (s.withFrame m len).draws = s.draws := rfl

/-! `State.withQb` -/
@[simp] theorem State.withQb_policy (v : Word) : (s.withQb v).policy = s.policy := rfl
@[simp] theorem State.withQb_status (v : Word) : (s.withQb v).status = s.status := rfl
@[simp] theorem State.withQb_pend (v : Word) : (s.withQb v).pend = s.pend := rfl
@[simp] theorem State.withQb_flen (v : Word) : (s.withQb v).flen = s.flen := rfl
@[simp] theorem State.withQb_qin (v : Word) : (s.withQb v).qin = s.qin := rfl
@[simp] theorem State.withQb_qb (v : Word) : (s.withQb v).qb = v := rfl
@[simp] theorem State.withQb_qout (v : Word) : (s.withQb v).qout = s.qout := rfl
@[simp] theorem State.withQb_frame (v : Word) : (s.withQb v).frame = s.frame := rfl
@[simp] theorem State.withQb_din (v : Word) : (s.withQb v).din = s.din := rfl
@[simp] theorem State.withQb_fin (v : Word) : (s.withQb v).fin = s.fin := rfl
@[simp] theorem State.withQb_bin (v : Word) : (s.withQb v).bin = s.bin := rfl
@[simp] theorem State.withQb_cin (v : Word) : (s.withQb v).cin = s.cin := rfl
@[simp] theorem State.withQb_dout (v : Word) : (s.withQb v).dout = s.dout := rfl
@[simp] theorem State.withQb_fout (v : Word) : (s.withQb v).fout = s.fout := rfl
@[simp] theorem State.withQb_bout (v : Word) : (s.withQb v).bout = s.bout := rfl
@[simp] theorem State.withQb_cout (v : Word) : (s.withQb v).cout = s.cout := rfl
@[simp] theorem State.withQb_resetLine (v : Word) : (s.withQb v).resetLine = s.resetLine := rfl
@[simp] theorem State.withQb_turns (v : Word) : (s.withQb v).turns = s.turns := rfl
@[simp] theorem State.withQb_reads (v : Word) : (s.withQb v).reads = s.reads := rfl
@[simp] theorem State.withQb_draws (v : Word) : (s.withQb v).draws = s.draws := rfl

/-! `State.withQout` -/
@[simp] theorem State.withQout_policy (v : DWord) : (s.withQout v).policy = s.policy := rfl
@[simp] theorem State.withQout_status (v : DWord) : (s.withQout v).status = s.status := rfl
@[simp] theorem State.withQout_pend (v : DWord) : (s.withQout v).pend = s.pend := rfl
@[simp] theorem State.withQout_flen (v : DWord) : (s.withQout v).flen = s.flen := rfl
@[simp] theorem State.withQout_qin (v : DWord) : (s.withQout v).qin = s.qin := rfl
@[simp] theorem State.withQout_qb (v : DWord) : (s.withQout v).qb = s.qb := rfl
@[simp] theorem State.withQout_qout (v : DWord) : (s.withQout v).qout = v := rfl
@[simp] theorem State.withQout_frame (v : DWord) : (s.withQout v).frame = s.frame := rfl
@[simp] theorem State.withQout_din (v : DWord) : (s.withQout v).din = s.din := rfl
@[simp] theorem State.withQout_fin (v : DWord) : (s.withQout v).fin = s.fin := rfl
@[simp] theorem State.withQout_bin (v : DWord) : (s.withQout v).bin = s.bin := rfl
@[simp] theorem State.withQout_cin (v : DWord) : (s.withQout v).cin = s.cin := rfl
@[simp] theorem State.withQout_dout (v : DWord) : (s.withQout v).dout = s.dout := rfl
@[simp] theorem State.withQout_fout (v : DWord) : (s.withQout v).fout = s.fout := rfl
@[simp] theorem State.withQout_bout (v : DWord) : (s.withQout v).bout = s.bout := rfl
@[simp] theorem State.withQout_cout (v : DWord) : (s.withQout v).cout = s.cout := rfl
@[simp] theorem State.withQout_resetLine (v : DWord) : (s.withQout v).resetLine = s.resetLine := rfl
@[simp] theorem State.withQout_turns (v : DWord) : (s.withQout v).turns = s.turns := rfl
@[simp] theorem State.withQout_reads (v : DWord) : (s.withQout v).reads = s.reads := rfl
@[simp] theorem State.withQout_draws (v : DWord) : (s.withQout v).draws = s.draws := rfl

/-! `State.withTurns` -/
@[simp] theorem State.withTurns_policy (ts : List Turn) : (s.withTurns ts).policy = s.policy := rfl
@[simp] theorem State.withTurns_status (ts : List Turn) : (s.withTurns ts).status = s.status := rfl
@[simp] theorem State.withTurns_pend (ts : List Turn) : (s.withTurns ts).pend = s.pend := rfl
@[simp] theorem State.withTurns_flen (ts : List Turn) : (s.withTurns ts).flen = s.flen := rfl
@[simp] theorem State.withTurns_qin (ts : List Turn) : (s.withTurns ts).qin = s.qin := rfl
@[simp] theorem State.withTurns_qb (ts : List Turn) : (s.withTurns ts).qb = s.qb := rfl
@[simp] theorem State.withTurns_qout (ts : List Turn) : (s.withTurns ts).qout = s.qout := rfl
@[simp] theorem State.withTurns_frame (ts : List Turn) : (s.withTurns ts).frame = s.frame := rfl
@[simp] theorem State.withTurns_din (ts : List Turn) : (s.withTurns ts).din = s.din := rfl
@[simp] theorem State.withTurns_fin (ts : List Turn) : (s.withTurns ts).fin = s.fin := rfl
@[simp] theorem State.withTurns_bin (ts : List Turn) : (s.withTurns ts).bin = s.bin := rfl
@[simp] theorem State.withTurns_cin (ts : List Turn) : (s.withTurns ts).cin = s.cin := rfl
@[simp] theorem State.withTurns_dout (ts : List Turn) : (s.withTurns ts).dout = s.dout := rfl
@[simp] theorem State.withTurns_fout (ts : List Turn) : (s.withTurns ts).fout = s.fout := rfl
@[simp] theorem State.withTurns_bout (ts : List Turn) : (s.withTurns ts).bout = s.bout := rfl
@[simp] theorem State.withTurns_cout (ts : List Turn) : (s.withTurns ts).cout = s.cout := rfl
@[simp] theorem State.withTurns_resetLine (ts : List Turn) : (s.withTurns ts).resetLine = s.resetLine := rfl
@[simp] theorem State.withTurns_turns (ts : List Turn) : (s.withTurns ts).turns = ts := rfl
@[simp] theorem State.withTurns_reads (ts : List Turn) : (s.withTurns ts).reads = s.reads := rfl
@[simp] theorem State.withTurns_draws (ts : List Turn) : (s.withTurns ts).draws = s.draws := rfl

/-! `State.withResetLine` -/
@[simp] theorem State.withResetLine_policy (b : Bool) : (s.withResetLine b).policy = s.policy := rfl
@[simp] theorem State.withResetLine_status (b : Bool) : (s.withResetLine b).status = s.status := rfl
@[simp] theorem State.withResetLine_pend (b : Bool) : (s.withResetLine b).pend = s.pend := rfl
@[simp] theorem State.withResetLine_flen (b : Bool) : (s.withResetLine b).flen = s.flen := rfl
@[simp] theorem State.withResetLine_qin (b : Bool) : (s.withResetLine b).qin = s.qin := rfl
@[simp] theorem State.withResetLine_qb (b : Bool) : (s.withResetLine b).qb = s.qb := rfl
@[simp] theorem State.withResetLine_qout (b : Bool) : (s.withResetLine b).qout = s.qout := rfl
@[simp] theorem State.withResetLine_frame (b : Bool) : (s.withResetLine b).frame = s.frame := rfl
@[simp] theorem State.withResetLine_din (b : Bool) : (s.withResetLine b).din = s.din := rfl
@[simp] theorem State.withResetLine_fin (b : Bool) : (s.withResetLine b).fin = s.fin := rfl
@[simp] theorem State.withResetLine_bin (b : Bool) : (s.withResetLine b).bin = s.bin := rfl
@[simp] theorem State.withResetLine_cin (b : Bool) : (s.withResetLine b).cin = s.cin := rfl
@[simp] theorem State.withResetLine_dout (b : Bool) : (s.withResetLine b).dout = s.dout := rfl
@[simp] theorem State.withResetLine_fout (b : Bool) : (s.withResetLine b).fout = s.fout := rfl
@[simp] theorem State.withResetLine_bout (b : Bool) : (s.withResetLine b).bout = s.bout := rfl
@[simp] theorem State.withResetLine_cout (b : Bool) : (s.withResetLine b).cout = s.cout := rfl
@[simp] theorem State.withResetLine_resetLine (b : Bool) : (s.withResetLine b).resetLine = b := rfl
@[simp] theorem State.withResetLine_turns (b : Bool) : (s.withResetLine b).turns = s.turns := rfl
@[simp] theorem State.withResetLine_reads (b : Bool) : (s.withResetLine b).reads = s.reads := rfl
@[simp] theorem State.withResetLine_draws (b : Bool) : (s.withResetLine b).draws = s.draws := rfl

/-! `State.respond` -/
@[simp] theorem State.respond_policy (v : Word) : (s.respond v).policy = s.policy := rfl
@[simp] theorem State.respond_status (v : Word) : (s.respond v).status = s.status := rfl
@[simp] theorem State.respond_pend (v : Word) : (s.respond v).pend = s.pend := rfl
@[simp] theorem State.respond_flen (v : Word) : (s.respond v).flen = s.flen := rfl
@[simp] theorem State.respond_qin (v : Word) : (s.respond v).qin = s.qin := rfl
@[simp] theorem State.respond_qb (v : Word) : (s.respond v).qb = s.qb := rfl
@[simp] theorem State.respond_qout (v : Word) : (s.respond v).qout = s.qout := rfl
@[simp] theorem State.respond_frame (v : Word) : (s.respond v).frame = s.frame := rfl
@[simp] theorem State.respond_din (v : Word) : (s.respond v).din = s.din := rfl
@[simp] theorem State.respond_fin (v : Word) : (s.respond v).fin = s.fin := rfl
@[simp] theorem State.respond_bin (v : Word) : (s.respond v).bin = s.bin := rfl
@[simp] theorem State.respond_cin (v : Word) : (s.respond v).cin = s.cin := rfl
@[simp] theorem State.respond_dout (v : Word) : (s.respond v).dout = s.dout := rfl
@[simp] theorem State.respond_fout (v : Word) : (s.respond v).fout = s.fout := rfl
@[simp] theorem State.respond_bout (v : Word) : (s.respond v).bout = s.bout := rfl
@[simp] theorem State.respond_cout (v : Word) : (s.respond v).cout = s.cout := rfl
@[simp] theorem State.respond_resetLine (v : Word) : (s.respond v).resetLine = s.resetLine := rfl
@[simp] theorem State.respond_turns (v : Word) : (s.respond v).turns = s.turns := rfl
@[simp] theorem State.respond_reads (v : Word) : (s.respond v).reads = v :: s.reads := rfl
@[simp] theorem State.respond_draws (v : Word) : (s.respond v).draws = s.draws := rfl

/-! `State.respondFree` -/
@[simp] theorem State.respondFree_policy : s.respondFree.policy = s.policy := rfl
@[simp] theorem State.respondFree_status : s.respondFree.status = s.status := rfl
@[simp] theorem State.respondFree_pend : s.respondFree.pend = s.pend := rfl
@[simp] theorem State.respondFree_flen : s.respondFree.flen = s.flen := rfl
@[simp] theorem State.respondFree_qin : s.respondFree.qin = s.qin := rfl
@[simp] theorem State.respondFree_qb : s.respondFree.qb = s.qb := rfl
@[simp] theorem State.respondFree_qout : s.respondFree.qout = s.qout := rfl
@[simp] theorem State.respondFree_frame : s.respondFree.frame = s.frame := rfl
@[simp] theorem State.respondFree_din : s.respondFree.din = s.din := rfl
@[simp] theorem State.respondFree_fin : s.respondFree.fin = s.fin := rfl
@[simp] theorem State.respondFree_bin : s.respondFree.bin = s.bin := rfl
@[simp] theorem State.respondFree_cin : s.respondFree.cin = s.cin := rfl
@[simp] theorem State.respondFree_dout : s.respondFree.dout = s.dout := rfl
@[simp] theorem State.respondFree_fout : s.respondFree.fout = s.fout := rfl
@[simp] theorem State.respondFree_bout : s.respondFree.bout = s.bout := rfl
@[simp] theorem State.respondFree_cout : s.respondFree.cout = s.cout := rfl
@[simp] theorem State.respondFree_resetLine : s.respondFree.resetLine = s.resetLine := rfl
@[simp] theorem State.respondFree_turns : s.respondFree.turns = s.turns := rfl
@[simp] theorem State.respondFree_reads : s.respondFree.reads = Config.freeRead s.draws :: s.reads := rfl
@[simp] theorem State.respondFree_draws : s.respondFree.draws = s.draws + 1 := rfl

/-! `State.assertReset` -/
@[simp] theorem State.assertReset_policy : s.assertReset.policy = State.reset.policy := rfl
@[simp] theorem State.assertReset_status : s.assertReset.status = State.reset.status := rfl
@[simp] theorem State.assertReset_pend : s.assertReset.pend = State.reset.pend := rfl
@[simp] theorem State.assertReset_flen : s.assertReset.flen = State.reset.flen := rfl
@[simp] theorem State.assertReset_qin : s.assertReset.qin = State.reset.qin := rfl
@[simp] theorem State.assertReset_qb : s.assertReset.qb = State.reset.qb := rfl
@[simp] theorem State.assertReset_qout : s.assertReset.qout = State.reset.qout := rfl
@[simp] theorem State.assertReset_frame : s.assertReset.frame = State.reset.frame := rfl
@[simp] theorem State.assertReset_din : s.assertReset.din = State.reset.din := rfl
@[simp] theorem State.assertReset_fin : s.assertReset.fin = State.reset.fin := rfl
@[simp] theorem State.assertReset_bin : s.assertReset.bin = State.reset.bin := rfl
@[simp] theorem State.assertReset_cin : s.assertReset.cin = State.reset.cin := rfl
@[simp] theorem State.assertReset_dout : s.assertReset.dout = State.reset.dout := rfl
@[simp] theorem State.assertReset_fout : s.assertReset.fout = State.reset.fout := rfl
@[simp] theorem State.assertReset_bout : s.assertReset.bout = State.reset.bout := rfl
@[simp] theorem State.assertReset_cout : s.assertReset.cout = State.reset.cout := rfl
@[simp] theorem State.assertReset_resetLine : s.assertReset.resetLine = true := rfl
@[simp] theorem State.assertReset_turns : s.assertReset.turns = s.turns := rfl
@[simp] theorem State.assertReset_reads : s.assertReset.reads = s.reads := rfl
@[simp] theorem State.assertReset_draws : s.assertReset.draws = s.draws := rfl

/-! `Status.issue` -/
@[simp] theorem Status.issue_busy : st.issue.busy = true := rfl
@[simp] theorem Status.issue_done : st.issue.done = false := rfl
@[simp] theorem Status.issue_err : st.issue.err = false := rfl
@[simp] theorem Status.issue_errcode : st.issue.errcode = .none := rfl
@[simp] theorem Status.issue_efield : st.issue.efield = noField := rfl
@[simp] theorem Status.issue_sOvf : st.issue.sOvf = st.sOvf := rfl
@[simp] theorem Status.issue_sSgn : st.issue.sSgn = st.sSgn := rfl
@[simp] theorem Status.issue_sInv : st.issue.sInv = st.sInv := rfl
@[simp] theorem Status.issue_sFlen : st.issue.sFlen = st.sFlen := rfl
@[simp] theorem Status.issue_sIll : st.issue.sIll = st.sIll := rfl
@[simp] theorem Status.issue_sHaz : st.issue.sHaz = st.sHaz := rfl

/-! `Status.complete` -/
@[simp] theorem Status.complete_busy : st.complete.busy = false := rfl
@[simp] theorem Status.complete_done : st.complete.done = true := rfl
@[simp] theorem Status.complete_err : st.complete.err = st.err := rfl
@[simp] theorem Status.complete_errcode : st.complete.errcode = st.errcode := rfl
@[simp] theorem Status.complete_efield : st.complete.efield = st.efield := rfl
@[simp] theorem Status.complete_sOvf : st.complete.sOvf = st.sOvf := rfl
@[simp] theorem Status.complete_sSgn : st.complete.sSgn = st.sSgn := rfl
@[simp] theorem Status.complete_sInv : st.complete.sInv = st.sInv := rfl
@[simp] theorem Status.complete_sFlen : st.complete.sFlen = st.sFlen := rfl
@[simp] theorem Status.complete_sIll : st.complete.sIll = st.sIll := rfl
@[simp] theorem Status.complete_sHaz : st.complete.sHaz = st.sHaz := rfl

/-! `Status.raise` -/
@[simp] theorem Status.raise_busy (code : ErrCode) (field : BitVec 5) : (st.raise code field).busy = st.busy := rfl
@[simp] theorem Status.raise_done (code : ErrCode) (field : BitVec 5) : (st.raise code field).done = st.done := rfl
@[simp] theorem Status.raise_err (code : ErrCode) (field : BitVec 5) : (st.raise code field).err = true := rfl
@[simp] theorem Status.raise_errcode (code : ErrCode) (field : BitVec 5) : (st.raise code field).errcode = code := rfl
@[simp] theorem Status.raise_efield (code : ErrCode) (field : BitVec 5) : (st.raise code field).efield = field := rfl
@[simp] theorem Status.raise_sOvf (code : ErrCode) (field : BitVec 5) : (st.raise code field).sOvf = st.sOvf := rfl
@[simp] theorem Status.raise_sSgn (code : ErrCode) (field : BitVec 5) : (st.raise code field).sSgn = st.sSgn := rfl
@[simp] theorem Status.raise_sInv (code : ErrCode) (field : BitVec 5) : (st.raise code field).sInv = st.sInv := rfl
@[simp] theorem Status.raise_sFlen (code : ErrCode) (field : BitVec 5) : (st.raise code field).sFlen = (st.sFlen || code == .flen) := rfl
@[simp] theorem Status.raise_sIll (code : ErrCode) (field : BitVec 5) : (st.raise code field).sIll = (st.sIll || code == .ill) := rfl
@[simp] theorem Status.raise_sHaz (code : ErrCode) (field : BitVec 5) : (st.raise code field).sHaz = st.sHaz := rfl

/-! `Status.mark` -/
@[simp] theorem Status.mark_busy (ev : Event) : (st.mark ev).busy = st.busy := rfl
@[simp] theorem Status.mark_done (ev : Event) : (st.mark ev).done = st.done := rfl
@[simp] theorem Status.mark_err (ev : Event) : (st.mark ev).err = st.err := rfl
@[simp] theorem Status.mark_errcode (ev : Event) : (st.mark ev).errcode = st.errcode := rfl
@[simp] theorem Status.mark_efield (ev : Event) : (st.mark ev).efield = st.efield := rfl
@[simp] theorem Status.mark_sOvf (ev : Event) : (st.mark ev).sOvf = (st.sOvf || ev == .ovf) := rfl
@[simp] theorem Status.mark_sSgn (ev : Event) : (st.mark ev).sSgn = (st.sSgn || ev == .sgn) := rfl
@[simp] theorem Status.mark_sInv (ev : Event) : (st.mark ev).sInv = (st.sInv || ev == .inv) := rfl
@[simp] theorem Status.mark_sFlen (ev : Event) : (st.mark ev).sFlen = st.sFlen := rfl
@[simp] theorem Status.mark_sIll (ev : Event) : (st.mark ev).sIll = st.sIll := rfl
@[simp] theorem Status.mark_sHaz (ev : Event) : (st.mark ev).sHaz = st.sHaz := rfl

/-! `Status.clear` -/
@[simp] theorem Status.clear_busy (d : Word) : (st.clear d).busy = st.busy := rfl
@[simp] theorem Status.clear_done (d : Word) : (st.clear d).done = st.done := rfl
@[simp] theorem Status.clear_err (d : Word) : (st.clear d).err = st.err := rfl
@[simp] theorem Status.clear_errcode (d : Word) : (st.clear d).errcode = st.errcode := rfl
@[simp] theorem Status.clear_efield (d : Word) : (st.clear d).efield = st.efield := rfl
@[simp] theorem Status.clear_sOvf (d : Word) : (st.clear d).sOvf = (st.sOvf && !d.getLsbD 16) := rfl
@[simp] theorem Status.clear_sSgn (d : Word) : (st.clear d).sSgn = (st.sSgn && !d.getLsbD 17) := rfl
@[simp] theorem Status.clear_sInv (d : Word) : (st.clear d).sInv = (st.sInv && !d.getLsbD 18) := rfl
@[simp] theorem Status.clear_sFlen (d : Word) : (st.clear d).sFlen = (st.sFlen && !d.getLsbD 19) := rfl
@[simp] theorem Status.clear_sIll (d : Word) : (st.clear d).sIll = (st.sIll && !d.getLsbD 20) := rfl
@[simp] theorem Status.clear_sHaz (d : Word) : (st.clear d).sHaz = (st.sHaz && !d.getLsbD 21) := rfl

/-! `Status.hazard` -/
@[simp] theorem Status.hazard_busy : st.hazard.busy = st.busy := rfl
@[simp] theorem Status.hazard_done : st.hazard.done = st.done := rfl
@[simp] theorem Status.hazard_err : st.hazard.err = st.err := rfl
@[simp] theorem Status.hazard_errcode : st.hazard.errcode = st.errcode := rfl
@[simp] theorem Status.hazard_efield : st.hazard.efield = st.efield := rfl
@[simp] theorem Status.hazard_sOvf : st.hazard.sOvf = st.sOvf := rfl
@[simp] theorem Status.hazard_sSgn : st.hazard.sSgn = st.sSgn := rfl
@[simp] theorem Status.hazard_sInv : st.hazard.sInv = st.sInv := rfl
@[simp] theorem Status.hazard_sFlen : st.hazard.sFlen = st.sFlen := rfl
@[simp] theorem Status.hazard_sIll : st.hazard.sIll = st.sIll := rfl
@[simp] theorem Status.hazard_sHaz : st.hazard.sHaz = true := rfl

end Updates

end Sys2Proof.Machine
end

