-- ==== Sys2Proof/Laws/Commands.lean ====
section
/-! SUPPORT. What each command can do, said once: which fields of the state it writes, and with what. -/

namespace Sys2Proof.Machine

/-! ## Scalar commands -/

/-- Quantize gives data unless REJECT meets an event (R97). -/
theorem quantize_isSome (x : FloatVal) (fmt : Fmt) (w : Width) (sc : Scale) (pol : Policy) :
    (quantize x fmt w sc pol).2.isSome = true ↔ pol ≠ .reject ∨ (quantize x fmt w sc pol).1 = .none := by
  simp only [quantize, emitted, Option.isSome_map]
  split
  · simp [*]
  · cases pol <;> simp [*]

/-- The event of a quantization does not depend on the policy (R93, R97). -/
theorem quantize_event (x : FloatVal) (fmt : Fmt) (w : Width) (sc : Scale) (pol : Policy) :
    (quantize x fmt w sc pol).1 = (classify fmt (fmt.scaledProduct x sc.factor) w).1 := rfl

theorem groupOf_lt (k : Int) (w : Width) : groupOf k w < 2 ^ (8 * w.bytes) := by
  have hpos : (0 : Int) < (2 : Int) ^ (8 * w.bytes) := by positivity
  have h := Int.emod_lt_of_pos k hpos
  have h0 := Int.emod_nonneg k (Int.ne_of_gt hpos)
  unfold groupOf
  zify
  rw [Int.toNat_of_nonneg h0]
  exact h

/-- A group that Quantize emits fits its bytes (R96). -/
theorem quantize_lt {x : FloatVal} {fmt : Fmt} {w : Width} {sc : Scale} {pol : Policy} {g : Nat}
    (h : (quantize x fmt w sc pol).2 = some g) : g < 2 ^ (8 * w.bytes) := by
  simp only [quantize, Option.map_eq_some_iff] at h
  obtain ⟨k, -, rfl⟩ := h
  exact groupOf_lt k w

/-- QENC writes QB and STATUS alone (R101). -/
theorem qenc_eq (w : Width) (sc : Scale) (fmt : Fmt) (s : State) :
    qenc w sc fmt s = { s with qb := (qenc w sc fmt s).qb, status := (qenc w sc fmt s).status } := by
  unfold qenc
  simp only
  split <;> split <;> rfl

/-- STATUS after QENC: the event's sticky flag, then the report (R101). -/
theorem qenc_status (w : Width) (sc : Scale) (fmt : Fmt) (s : State) :
    (qenc w sc fmt s).status =
      if reported s.policy (quantize (scalarOperand s fmt) fmt w sc s.policy).1 then
        (s.status.mark (quantize (scalarOperand s fmt) fmt w sc s.policy).1).raise
          (quantize (scalarOperand s fmt) fmt w sc s.policy).1.code noField
      else s.status.mark (quantize (scalarOperand s fmt) fmt w sc s.policy).1 := by
  unfold qenc
  simp only
  split <;> split <;> rfl

/-- QB after QENC: the group, if there is one (R101). -/
theorem qenc_qb (w : Width) (sc : Scale) (fmt : Fmt) (s : State) :
    (qenc w sc fmt s).qb = match (quantize (scalarOperand s fmt) fmt w sc s.policy).2 with
      | some g => BitVec.ofNat 32 g
      | none => s.qb := by
  unfold qenc
  simp only
  split <;> split <;> simp_all

/-! ## Frame commands -/

theorem fieldResult_raw (s : State) (f : Field) {n : Nat} (h : f.kind = .raw n) :
    fieldResult s f = (.none, some (f.slot.input s)) := by
  simp [fieldResult, h]

theorem fieldResult_isSome (s : State) (f : Field) :
    (fieldResult s f).2.isSome = true ↔ s.policy ≠ .reject ∨ (fieldResult s f).1 = .none := by
  unfold fieldResult
  split
  · exact quantize_isSome _ _ _ _ _
  · simp

/-- A field's result depends on its slot's input and on the policy alone. -/
theorem fieldResult_congr {s s' : State} {f : Field} (h : f.slot.input s = f.slot.input s')
    (hp : s.policy = s'.policy) : fieldResult s f = fieldResult s' f := by
  simp [fieldResult, h, hp]

/-- `firstEvent` finds the lowest index that has an event. -/
theorem firstEvent_eq_some (i : Nat) (evs : List Event) (k : Nat) (ev : Event) :
    firstEvent i evs = some (k, ev) ↔
      i ≤ k ∧ evs[k - i]? = some ev ∧ ev ≠ .none ∧ ∀ j, i ≤ j → j < k → evs[j - i]? = some .none := by
  induction evs generalizing i with
  | nil => simp [firstEvent]
  | cons e evs ih =>
    unfold firstEvent
    by_cases he : e = .none
    · subst he
      rw [if_pos rfl, ih]
      constructor
      · rintro ⟨h1, h2, h3, h4⟩
        refine ⟨by omega, ?_, h3, fun j hj hk => ?_⟩
        · rw [show k - i = k - (i + 1) + 1 by omega]; simpa using h2
        · rcases Nat.eq_or_lt_of_le hj with rfl | hj
          · simp
          · rw [show j - i = j - (i + 1) + 1 by omega]; simpa using h4 j (by omega) hk
      · rintro ⟨h1, h2, h3, h4⟩
        have hik : i < k := by
          rcases Nat.eq_or_lt_of_le h1 with rfl | h
          · simp at h2; exact absurd h2.symm h3
          · exact h
        refine ⟨by omega, ?_, h3, fun j hj hk => ?_⟩
        · rw [show k - i = k - (i + 1) + 1 by omega] at h2; simpa using h2
        · have := h4 j (by omega) hk
          rw [show j - i = j - (i + 1) + 1 by omega] at this; simpa using this
    · rw [if_neg he]
      constructor
      · intro h
        simp only [Option.some.injEq, Prod.mk.injEq] at h
        obtain ⟨rfl, rfl⟩ := h
        exact ⟨le_rfl, by simp, he, fun j hj hk => by omega⟩
      · rintro ⟨h1, h2, h3, h4⟩
        rcases Nat.eq_or_lt_of_le h1 with rfl | h
        · simp at h2; simp [h2]
        · have := h4 i le_rfl h
          simp at this; exact absurd this he

theorem firstEvent_eq_none (i : Nat) (evs : List Event) : firstEvent i evs = none ↔ ∀ ev ∈ evs, ev = .none := by
  induction evs generalizing i with
  | nil => simp [firstEvent]
  | cons e evs ih =>
    unfold firstEvent
    by_cases he : e = .none
    · simp [he, ih]
    · simp [he]

/-- The table's rows of index 14 and above are raw: an event is in a row of index 13 or below (R151). -/
theorem frameEvents_firstEvent {s : State} {k : Nat} {ev : Event} (h : firstEvent 0 (frameEvents s) = some (k, ev)) :
    k ≤ 13 := by
  obtain ⟨-, h2, h3, -⟩ := (firstEvent_eq_some 0 _ k ev).1 h
  simp only [Nat.sub_zero, frameEvents, List.getElem?_map, Option.map_eq_some_iff] at h2
  obtain ⟨f, hf, rfl⟩ := h2
  by_contra hk
  have hlt : k < 19 := (List.getElem?_eq_some_iff.1 hf).1
  apply h3
  have hraw : ∀ j : Fin 19, 14 ≤ j.val → ∀ f' : Field, fieldTable[j.val]? = some f' → ∃ n, f'.kind = .raw n := by
    intro j hj f' hf'
    fin_cases j <;> simp_all [fieldTable] <;> subst hf' <;> exact ⟨_, rfl⟩
  obtain ⟨n, hn⟩ := hraw ⟨k, hlt⟩ (by simp; omega) f hf
  rw [fieldResult_raw s f hn]

theorem markAll_busy (st : Status) (evs : List Event) :
    (st.markAll evs).busy = st.busy ∧ (st.markAll evs).done = st.done ∧ (st.markAll evs).err = st.err ∧
    (st.markAll evs).errcode = st.errcode ∧ (st.markAll evs).efield = st.efield ∧
    (st.markAll evs).sFlen = st.sFlen ∧ (st.markAll evs).sIll = st.sIll ∧ (st.markAll evs).sHaz = st.sHaz := by
  induction evs generalizing st with
  | nil => simp [Status.markAll]
  | cons e evs ih => simpa [Status.markAll] using ih (st.mark e)

/-- Each quantization flag is the OR of the events of its kind (R27, R123). -/
theorem markAll_sticky (st : Status) (evs : List Event) :
    ((st.markAll evs).sOvf = true ↔ st.sOvf = true ∨ .ovf ∈ evs) ∧
    ((st.markAll evs).sSgn = true ↔ st.sSgn = true ∨ .sgn ∈ evs) ∧
    ((st.markAll evs).sInv = true ↔ st.sInv = true ∨ .inv ∈ evs) := by
  induction evs generalizing st with
  | nil => simp [Status.markAll]
  | cons e evs ih =>
    obtain ⟨h1, h2, h3⟩ := ih (st.mark e)
    simp only [Status.markAll, List.foldl_cons] at h1 h2 h3 ⊢
    simp only [h1, h2, h3, List.mem_cons, Status.mark_sOvf, Status.mark_sSgn, Status.mark_sInv, Bool.or_eq_true,
      beq_iff_eq]
    refine ⟨?_, ?_, ?_⟩ <;> simp only [or_assoc, eq_comm]

/-- FENC writes FRAME, FLEN and STATUS alone (R123). -/
theorem fenc_eq (s : State) :
    fenc s = { s with frame := (fenc s).frame, flen := (fenc s).flen, status := (fenc s).status } := by
  unfold fenc
  generalize encodedFrame s = fr
  generalize frameEvents s = evs
  generalize firstEvent 0 evs = first
  rcases first with _ | ⟨i, ev⟩ <;> dsimp only <;> split <;> try split
  all_goals rfl

/-- Whether FENC writes the frame (R124). -/
theorem fenc_frame (s : State) :
    (fenc s).frame = (if s.policy = .reject ∧ (firstEvent 0 (frameEvents s)).isSome then s.frame else encodedFrame s) ∧
    (fenc s).flen = (if s.policy = .reject ∧ (firstEvent 0 (frameEvents s)).isSome then s.flen else 42#8) := by
  unfold fenc
  generalize encodedFrame s = fr
  generalize frameEvents s = evs
  generalize firstEvent 0 evs = first
  rcases first with _ | ⟨i, ev⟩ <;> dsimp only <;> split <;> try split
  all_goals exact ⟨rfl, rfl⟩

/-- STATUS after FENC: every event's sticky flag, then the report of the first event (R123). -/
theorem fenc_status (s : State) :
    (fenc s).status = match firstEvent 0 (frameEvents s) with
      | some (i, ev) => if s.policy = .wrap then s.status.markAll (frameEvents s)
          else (s.status.markAll (frameEvents s)).raise ev.code (BitVec.ofNat 5 i)
      | none => s.status.markAll (frameEvents s) := by
  unfold fenc
  generalize encodedFrame s = fr
  generalize frameEvents s = evs
  generalize firstEvent 0 evs = first
  rcases first with _ | ⟨i, ev⟩ <;> dsimp only <;> split <;> try split
  all_goals rfl

theorem firstEvent_frameEvents_isSome (s : State) :
    (firstEvent 0 (frameEvents s)).isSome = true ↔ ∃ f ∈ fieldTable, (fieldResult s f).1 ≠ .none := by
  rw [Option.isSome_iff_ne_none, Ne, firstEvent_eq_none]
  simp [frameEvents]

/-! ## The frame FENC writes -/

/-- A byte outside every field of a list is as it was. -/
theorem read_writeFields_outside (s : State) (fs : List Field) (m : Memory) (a : Nat)
    (h : ∀ f ∈ fs, a < f.off ∨ f.off + f.bytes ≤ a) : (fs.foldl (writeField s) m).read a = m.read a := by
  induction fs generalizing m with
  | nil => rfl
  | cons f fs ih =>
    rw [List.foldl_cons, ih _ (fun f' hf' => h f' (by simp [hf']))]
    unfold writeField
    split
    · exact Memory.read_writeGroup_other _ _ (h f (by simp))
    · rfl

/-- A byte of a field with data is that field's, where the fields of the list do not overlap. -/
theorem read_writeFields_inside (s : State) (fs : List Field) (m : Memory) {f : Field} {g a : Nat} (hf : f ∈ fs)
    (hd : fs.Pairwise (fun f f' => f.off + f.bytes ≤ f'.off)) (hg : (fieldResult s f).2 = some g)
    (h1 : f.off ≤ a) (h2 : a < f.off + f.bytes) :
    (fs.foldl (writeField s) m).read a = BitVec.ofNat 8 (g >>> (8 * (f.off + f.bytes - 1 - a))) := by
  induction fs generalizing m with
  | nil => simp at hf
  | cons f0 fs ih =>
    obtain ⟨hd0, hd'⟩ := List.pairwise_cons.1 hd
    rw [List.foldl_cons]
    by_cases hin : f ∈ fs
    · exact ih _ hin hd'
    · obtain rfl : f = f0 := by simpa [hin] using hf
      rw [read_writeFields_outside s fs _ a (fun f' hf' => Or.inl (by have := hd0 f' hf'; omega))]
      simp only [writeField, hg]
      rw [Memory.read_writeGroup, if_pos ⟨h1, h2⟩]

/-- The table's fields follow one another without overlap, inside the 42 bytes (R121). -/
theorem fieldTable_disjoint : fieldTable.Pairwise (fun f f' => f.off + f.bytes ≤ f'.off) := by decide

theorem fieldTable_inside : ∀ f ∈ fieldTable, f.off + f.bytes ≤ frameLength := by decide

/-- Every byte of the frame lies in a field of the table (R121). -/
theorem fieldTable_covers : ∀ a : Fin 42, ∃ f ∈ fieldTable, f.off ≤ a.val ∧ a.val < f.off + f.bytes := by decide

theorem fieldResult_lt {s : State} {f : Field} {g : Nat} (hf : f ∈ fieldTable) (h : (fieldResult s f).2 = some g) :
    g < 2 ^ (8 * f.bytes) := by
  unfold fieldResult at h
  split at h
  · rename_i hk
    simp only [Field.bytes, hk]
    exact quantize_lt h
  · rename_i n hk
    obtain rfl : f.slot.input s = g := by simpa using h
    simp only [fieldTable, List.mem_cons, List.not_mem_nil, or_false] at hf
    rcases hf with rfl | rfl | rfl | rfl | rfl | rfl | rfl | rfl | rfl | rfl | rfl | rfl | rfl | rfl | rfl | rfl |
      rfl | rfl | rfl <;> simp_all [Field.bytes, Slot.input] <;> first | exact BitVec.isLt _ | (subst hk; exact BitVec.isLt _)

/-- A field's group read back from the frame FENC has written (R123). -/
theorem readGroup_encodedFrame {s : State} {f : Field} {g : Nat} (hf : f ∈ fieldTable)
    (hg : (fieldResult s f).2 = some g) : (encodedFrame s).readGroup f.off f.bytes = g := by
  have h := Memory.readGroup_writeGroup s.frame f.off f.bytes g
  rw [Nat.mod_eq_of_lt (fieldResult_lt hf hg)] at h
  rw [← h]
  refine Memory.readGroup_congr fun a h1 h2 => ?_
  rw [encodedFrame, read_writeFields_inside s _ _ hf fieldTable_disjoint hg h1 h2, Memory.read_writeGroup,
    if_pos ⟨h1, h2⟩]

/-- FENC touches no byte outside 0..41 (R129). -/
theorem read_encodedFrame_outside (s : State) {a : Nat} (h : frameLength ≤ a) :
    (encodedFrame s).read a = s.frame.read a :=
  read_writeFields_outside s _ _ a (fun f hf => Or.inr (Nat.le_trans (fieldTable_inside f hf) h))

theorem encodedFrame_wf {s : State} (h : s.frame.wf) : (encodedFrame s).wf := by
  have key : ∀ (fs : List Field) (m : Memory), (∀ f ∈ fs, f ∈ fieldTable) → m.wf → (fs.foldl (writeField s) m).wf := by
    intro fs
    induction fs with
    | nil => intro m _ hm; exact hm
    | cons f fs ih =>
      intro m hfs hm
      refine ih _ (fun f' hf' => hfs f' (by simp [hf'])) ?_
      unfold writeField
      split
      · exact Memory.writeGroup_wf hm (fieldTable_inside f (hfs f (by simp))) _
      · exact hm
  exact key _ _ (fun _ hf => hf) h

/-- Decoding fields writes the output registers alone. -/
theorem decodeFields_eq (fs : List Field) (s : State) : fs.foldl decodeField s = { s with
    dout := (fs.foldl decodeField s).dout, fout := (fs.foldl decodeField s).fout
    bout := (fs.foldl decodeField s).bout, cout := (fs.foldl decodeField s).cout } := by
  induction fs generalizing s with
  | nil => rfl
  | cons f fs ih =>
    rw [List.foldl_cons]
    conv_lhs => rw [ih]
    unfold decodeField
    generalize decodedField s.frame f = v
    cases f.slot <;> rfl

/-- FDEC writes the output registers and STATUS alone (R125). -/
theorem fdec_eq (s : State) : fdec s = { s with
    dout := (fdec s).dout, fout := (fdec s).fout, bout := (fdec s).bout, cout := (fdec s).cout
    status := (fdec s).status } := by
  unfold fdec
  split
  · conv_lhs => rw [decodeFields_eq]
    conv_rhs => rw [decodeFields_eq]
  · rfl

/-- FDEC of a 42-byte frame decodes the fields in table order (R125). -/
theorem fdec_ok {s : State} (h : s.flen = 42#8) : fdec s = fieldTable.foldl decodeField s := if_pos h

/-- FDEC of any other length is error FLEN (R126). -/
theorem fdec_error {s : State} (h : s.flen ≠ 42#8) : fdec s = s.raiseError .flen noField := if_neg h

theorem fdec_status (s : State) :
    (fdec s).status = if s.flen = 42#8 then s.status else s.status.raise .flen noField := by
  by_cases h : s.flen = 42#8
  · rw [if_pos h, fdec_ok h, decodeFields_eq]
  · rw [if_neg h, fdec_error h]; rfl

/-- The output registers after FDEC of a 42-byte frame: each slot's, from its own field (R125). -/
theorem fdec_outputs {s : State} (h : s.flen = 42#8) (f : Field) (hf : f ∈ fieldTable) :
    match f.slot with
    | .d i => (fdec s).dout[i] = BitVec.ofNat 64 (decodedField s.frame f)
    | .f j => (fdec s).fout[j] = BitVec.ofNat 32 (decodedField s.frame f)
    | .u8 j => (fdec s).bout[j] = BitVec.ofNat 8 (decodedField s.frame f)
    | .u32 => (fdec s).cout = BitVec.ofNat 32 (decodedField s.frame f) := by
  rw [fdec_ok h]
  simp only [fieldTable, List.mem_cons, List.not_mem_nil, or_false] at hf
  rcases hf with rfl | rfl | rfl | rfl | rfl | rfl | rfl | rfl | rfl | rfl | rfl | rfl | rfl | rfl | rfl | rfl | rfl |
    rfl | rfl <;> simp [fieldTable, decodeField, Slot.output]

/-- Every command answers a next state: BTQC has no command that stops (R150). -/
theorem exec_next (i : Instr) (s : State) : ∃ t, exec i s = .next t := by
  cases i <;> exact ⟨_, rfl⟩

/-! ## Any command -/

/-- Every command is one of the five operations of R71. -/
theorem instr_cases (i : Instr) : i = .nop ∨ (∃ w sc f, i = qencOf w sc f) ∨ (∃ w sc f, i = qdecOf w sc f) ∨ i = .fenc ∨ i = .fdec := by
  cases i
  · exact Or.inl rfl
  · exact Or.inr (Or.inl ⟨.w2, _, _, rfl⟩)
  · exact Or.inr (Or.inl ⟨.w3, _, _, rfl⟩)
  · exact Or.inr (Or.inl ⟨.w4, _, _, rfl⟩)
  · exact Or.inr (Or.inr (Or.inl ⟨.w2, _, _, rfl⟩))
  · exact Or.inr (Or.inr (Or.inl ⟨.w3, _, _, rfl⟩))
  · exact Or.inr (Or.inr (Or.inl ⟨.w4, _, _, rfl⟩))
  · simp
  · simp

theorem exec_qenc (w sc f) (s : State) : exec (qencOf w sc f) s = .next (qenc w sc f s) := by cases w <;> rfl

theorem exec_qdec (w sc f) (s : State) : exec (qdecOf w sc f) s = .next (qdec w sc f s) := by cases w <;> rfl

theorem exec_fenc (s : State) : exec .fenc s = .next (fenc s) := rfl
theorem exec_fdec (s : State) : exec .fdec s = .next (fdec s) := rfl

/-- No command writes CTRL, PEND, an input register, RESET or a field of the model's own (R180). -/
theorem exec_keep {i : Instr} {s t : State} (h : exec i s = .next t) :
    t.policy = s.policy ∧ t.pend = s.pend ∧ t.qin = s.qin ∧ t.din = s.din ∧ t.fin = s.fin ∧ t.bin = s.bin ∧
      t.cin = s.cin ∧ t.resetLine = s.resetLine ∧ t.turns = s.turns ∧ t.reads = s.reads ∧ t.draws = s.draws := by
  cases i <;> (simp only [exec, execNop, execQencW2, execQencW3, execQencW4, execQdecW2, execQdecW3, execQdecW4, execFenc, execFdec, Host.Outcome.next.injEq] at h; subst h)
  · simp
  iterate 3 (rw [qenc_eq]; simp)
  iterate 3 simp [qdec]
  · rw [fenc_eq]; simp
  · rw [fdec_eq]; simp

/-- STATUS after a command: its sticky flags at least as before, then at most one report, of a code that command has
(R152). -/
theorem exec_status {i : Instr} {s t : State} (h : exec i s = .next t) :
    ∃ st : Status, (t.status = st ∨ ∃ code field, t.status = st.raise code field ∧
        ((code = .flen ∧ field = noField ∧ i = .fdec) ∨ ((code = .qovf ∨ code = .qsign ∨ code = .qinv) ∧ (field = noField ∨ field.toNat ≤ 13) ∧ s.policy ≠ .wrap ∧ (i = .fenc ∨ ∃ w sc f, i = qencOf w sc f)))) ∧
      st.busy = s.status.busy ∧ st.done = s.status.done ∧ st.err = s.status.err ∧ st.errcode = s.status.errcode ∧ st.efield = s.status.efield ∧ st.sFlen = s.status.sFlen ∧ st.sIll = s.status.sIll ∧ st.sHaz = s.status.sHaz ∧
      (s.status.sOvf = true → st.sOvf = true) ∧ (s.status.sSgn = true → st.sSgn = true) ∧ (s.status.sInv = true → st.sInv = true) := by
  have hq : ∀ w sc f, ∃ st : Status, ((qenc w sc f s).status = st ∨ ∃ code field, (qenc w sc f s).status = st.raise code field ∧
        ((code = .qovf ∨ code = .qsign ∨ code = .qinv) ∧ (field = noField ∨ field.toNat ≤ 13) ∧ s.policy ≠ .wrap)) ∧
      st.busy = s.status.busy ∧ st.done = s.status.done ∧ st.err = s.status.err ∧ st.errcode = s.status.errcode ∧ st.efield = s.status.efield ∧ st.sFlen = s.status.sFlen ∧ st.sIll = s.status.sIll ∧ st.sHaz = s.status.sHaz ∧
      (s.status.sOvf = true → st.sOvf = true) ∧ (s.status.sSgn = true → st.sSgn = true) ∧ (s.status.sInv = true → st.sInv = true) := by
    intro w sc f
    refine ⟨s.status.mark (quantize (scalarOperand s f) f w sc s.policy).1, ?_, by simp +contextual⟩
    rw [qenc_status]
    generalize (quantize (scalarOperand s f) f w sc s.policy).1 = ev
    split
    · rename_i hr
      right
      refine ⟨_, _, rfl, ?_, Or.inl rfl, ?_⟩
      · cases ev <;> simp [reported, Event.code] at *
      · intro hw; simp [reported, hw] at hr
    · left; rfl
  cases i <;> (simp only [exec, execNop, execQencW2, execQencW3, execQencW4, execQdecW2, execQdecW3, execQdecW4, execFenc, execFdec, Host.Outcome.next.injEq] at h; subst h)
  · exact ⟨s.status, Or.inl rfl, by simp⟩
  · rename_i sc f; obtain ⟨st, h1, h2⟩ := hq .w2 sc f
    exact ⟨st, h1.imp id (fun ⟨c, fl, e, h⟩ => ⟨c, fl, e, Or.inr ⟨h.1, h.2.1, h.2.2, Or.inr ⟨.w2, sc, f, rfl⟩⟩⟩), h2⟩
  · rename_i sc f; obtain ⟨st, h1, h2⟩ := hq .w3 sc f
    exact ⟨st, h1.imp id (fun ⟨c, fl, e, h⟩ => ⟨c, fl, e, Or.inr ⟨h.1, h.2.1, h.2.2, Or.inr ⟨.w3, sc, f, rfl⟩⟩⟩), h2⟩
  · rename_i sc f; obtain ⟨st, h1, h2⟩ := hq .w4 sc f
    exact ⟨st, h1.imp id (fun ⟨c, fl, e, h⟩ => ⟨c, fl, e, Or.inr ⟨h.1, h.2.1, h.2.2, Or.inr ⟨.w4, sc, f, rfl⟩⟩⟩), h2⟩
  iterate 3 exact ⟨s.status, Or.inl rfl, by simp⟩
  · refine ⟨s.status.markAll (frameEvents s), ?_, ?_⟩
    · rw [fenc_status]
      cases hf : firstEvent 0 (frameEvents s) with
      | none => exact Or.inl rfl
      | some p =>
        obtain ⟨k, ev⟩ := p
        dsimp only
        split
        · exact Or.inl rfl
        · rename_i hw
          right
          have hk := frameEvents_firstEvent hf
          have hev := ((firstEvent_eq_some _ _ _ _).1 hf).2.2.1
          refine ⟨_, _, rfl, Or.inr ⟨?_, Or.inr ?_, hw, Or.inl rfl⟩⟩
          · cases ev <;> simp [Event.code] at *
          · simp; omega
    · obtain ⟨h1, h2, h3, h4, h5, h6, h7, h8⟩ := markAll_busy s.status (frameEvents s)
      obtain ⟨g1, g2, g3⟩ := markAll_sticky s.status (frameEvents s)
      exact ⟨h1, h2, h3, h4, h5, h6, h7, h8, fun h => g1.2 (Or.inl h), fun h => g2.2 (Or.inl h), fun h => g3.2 (Or.inl h)⟩
  · refine ⟨s.status, ?_, by simp⟩
    rw [fdec_status]
    split
    · exact Or.inl rfl
    · exact Or.inr ⟨_, _, rfl, Or.inl ⟨rfl, rfl, rfl⟩⟩

/-- Every command keeps FRAME's canonical form. -/
theorem exec_frame_wf {i : Instr} {s t : State} (hw : s.frame.wf) (h : exec i s = .next t) : t.frame.wf := by
  cases i <;> (simp only [exec, execNop, execQencW2, execQencW3, execQencW4, execQdecW2, execQdecW3, execQdecW4, execFenc, execFdec, Host.Outcome.next.injEq] at h; subst h)
  · exact hw
  iterate 3 (rw [qenc_eq]; exact hw)
  iterate 3 exact hw
  · rw [(fenc_frame s).1]; split
    · exact hw
    · exact encodedFrame_wf hw
  · rw [fdec_eq]; exact hw

/-- Whether FENC writes the frame, as its meaning asks it (R124). -/
theorem fencWrites_iff (s : State) : s.fencWrites ↔ ¬ (s.policy = .reject ∧ (firstEvent 0 (frameEvents s)).isSome = true) := by
  rw [firstEvent_frameEvents_isSome]
  unfold State.fencWrites
  constructor
  · rintro (h | h) ⟨h1, f, hf, h2⟩
    · exact h h1
    · exact h2 (h f hf)
  · intro h
    by_cases hp : s.policy = .reject
    · right; intro f hf; by_contra hc; exact h ⟨hp, f, hf, hc⟩
    · left; exact hp

theorem fenc_written {s : State} (h : s.fencWrites) : (fenc s).frame = encodedFrame s ∧ (fenc s).flen = 42#8 := by
  have := (fencWrites_iff s).1 h
  obtain ⟨h1, h2⟩ := fenc_frame s
  rw [h1, h2, if_neg this, if_neg this]; exact ⟨rfl, rfl⟩

/-- Where FENC writes the frame every field has its group (R123). -/
theorem field_some {s : State} (h : s.fencWrites) {f : Field} (hf : f ∈ fieldTable) : ∃ g, (fieldResult s f).2 = some g := by
  rw [← Option.isSome_iff_exists, fieldResult_isSome]
  rcases h with h | h
  · exact Or.inl h
  · exact Or.inr (h f hf)

/-- The accumulator of a group that Quantize emits (R96, R98). -/
theorem accumulator_groupOf (w : Width) (t : Int) : accumulator (groupOf t w) w = if w = .w4 then (BitVec.ofInt 32 t).toInt else t % (2:Int)^(8*w.bytes) := by
  have hp : (0:Int) < (2:Int)^(8*w.bytes) := by positivity
  have h0 := Int.emod_nonneg t (Int.ne_of_gt hp)
  have hlt := groupOf_lt t w
  unfold accumulator
  rw [Nat.mod_eq_of_lt hlt]
  cases w
  · simp [groupOf, Width.bytes] at *; omega
  · simp [groupOf, Width.bytes] at *; omega
  · simp only [if_true]
    congr 1
    apply BitVec.eq_of_toNat_eq
    simp [groupOf, Width.bytes, BitVec.toNat_ofInt] at *
    omega

theorem accumulator_mod (g : Nat) (w : Width) : accumulator (g % 2^(8*w.bytes)) w = accumulator g w := by simp [accumulator]

end Sys2Proof.Machine
end

