-- ==== Sys2Proof/Laws/Flags.lean ====
section
/-! SUPPORT. The laws of STATUS and CTRL as the words the Host reads and writes. -/

namespace Sys2Proof.Machine

/-- One bit at its place is that bit alone. -/
theorem bitAt_getLsbD (b : Bool) (n i : Nat) (hn : n < 32) :
    (bitAt b n).getLsbD i = (b && decide (i = n)) := by
  simp only [bitAt, BitVec.getLsbD_shiftLeft, BitVec.getLsbD_setWidth, BitVec.getLsbD_ofBool]
  by_cases h : i = n
  · subst h; simp [hn]
  · rcases Nat.lt_or_ge i n with h' | h'
    · simp [h', h]
    · have : ¬ (i - n = 0) := by omega
      simp [h, this]

/-- Every bit of STATUS as the Host reads it (R23). -/
theorem Status.toWord_getLsbD (st : Status) (i : Nat) :
    st.toWord.getLsbD i =
    ((st.busy && decide (i = 0)) || (st.done && decide (i = 1)) || (st.err && decide (i = 2)) ||
     (decide (4 ≤ i) && st.errcode.bits.getLsbD (i - 4)) || (decide (8 ≤ i) && st.efield.getLsbD (i - 8)) ||
     (st.sOvf && decide (i = 16)) || (st.sSgn && decide (i = 17)) || (st.sInv && decide (i = 18)) ||
     (st.sFlen && decide (i = 19)) || (st.sIll && decide (i = 20)) || (st.sHaz && decide (i = 21))) := by
  have h1 : (st.errcode.bits.setWidth 32 <<< 4).getLsbD i = (decide (4 ≤ i) && st.errcode.bits.getLsbD (i - 4)) := by
    simp only [BitVec.getLsbD_shiftLeft, BitVec.getLsbD_setWidth]
    by_cases h : 4 ≤ i
    · by_cases h2 : i < 32
      · have h3 : ¬ i < 4 := by omega
        have h4 : i - 4 < 32 := by omega
        simp [h, h2, h3, h4]
      · have : st.errcode.bits.getLsbD (i - 4) = false := BitVec.getLsbD_of_ge _ _ (by omega)
        simp [this]
    · have : i < 4 := by omega
      simp [h, this]
  have h2 : (st.efield.setWidth 32 <<< 8).getLsbD i = (decide (8 ≤ i) && st.efield.getLsbD (i - 8)) := by
    simp only [BitVec.getLsbD_shiftLeft, BitVec.getLsbD_setWidth]
    by_cases h : 8 ≤ i
    · by_cases h2 : i < 32
      · have h3 : ¬ i < 8 := by omega
        have h4 : i - 8 < 32 := by omega
        simp [h, h2, h3, h4]
      · have : st.efield.getLsbD (i - 8) = false := BitVec.getLsbD_of_ge _ _ (by omega)
        simp [this]
    · have : i < 8 := by omega
      simp [h, this]
  simp only [Status.toWord, BitVec.getLsbD_or, h1, h2, bitAt_getLsbD _ _ _ (by decide : (0:Nat) < 32),
    bitAt_getLsbD _ _ _ (by decide : (1:Nat) < 32), bitAt_getLsbD _ _ _ (by decide : (2:Nat) < 32),
    bitAt_getLsbD _ _ _ (by decide : (16:Nat) < 32), bitAt_getLsbD _ _ _ (by decide : (17:Nat) < 32),
    bitAt_getLsbD _ _ _ (by decide : (18:Nat) < 32), bitAt_getLsbD _ _ _ (by decide : (19:Nat) < 32),
    bitAt_getLsbD _ _ _ (by decide : (20:Nat) < 32), bitAt_getLsbD _ _ _ (by decide : (21:Nat) < 32)]

/-- A write to STATUS clears the sticky bits written as 1, and no other bit (R57). -/
theorem Status.clear_toWord (st : Status) (d : Word) : (st.clear d).toWord = st.toWord &&& ~~~(d &&& 0x003F0000#32) := by
  apply BitVec.eq_of_getLsbD_eq
  intro i hi
  rw [BitVec.getLsbD_and, Status.toWord_getLsbD, Status.toWord_getLsbD, BitVec.getLsbD_not, BitVec.getLsbD_and]
  interval_cases i <;> simp

/-- POLICY after a write of `b`: 0b11 keeps it (R22). -/
theorem Policy.write_bits (p : Policy) (b : BitVec 2) : (p.write b).bits = if b = 0b11#2 then p.bits else b := by
  have : ∀ b : BitVec 2, b = 0 ∨ b = 1 ∨ b = 2 ∨ b = 3 := by decide
  rcases this b with rfl | rfl | rfl | rfl <;> cases p <;> decide

end Sys2Proof.Machine
end

