-- ==== Sys2Proof/Laws/Float.lean ====
section
/-! SUPPORT. The laws of the floating-point formats: which count of units a pattern stands for, that patterns count up
with their values, and what rounding does. -/

namespace Sys2Proof

theorem Fmt.infMag_eq (fmt : Fmt) : ∃ s0, fmt.infMag = (s0 + 1) * 2 ^ fmt.fracBits := by
  cases fmt
  · exact ⟨2046, by decide⟩
  · exact ⟨254, by decide⟩

/-- The count of units by exponent field and fraction, without shifts (R12). -/
theorem Fmt.units_eq (fmt : Fmt) (g : Nat) : fmt.units g =
    if g / 2 ^ fmt.fracBits = 0 then g
    else (2 ^ fmt.fracBits + g % 2 ^ fmt.fracBits) * 2 ^ (g / 2 ^ fmt.fracBits - 1) := by
  unfold Fmt.units
  rw [Nat.shiftRight_eq_div_pow]
  split <;> simp [Nat.shiftLeft_eq]

/-- Rounding never passes the pattern of infinity (R12). -/
theorem Fmt.roundMag_le (fmt : Fmt) (n d : Nat) : fmt.roundMag n d ≤ fmt.infMag := Nat.min_le_right _ _

/-- The pattern of infinity leaves the sign bit out. -/
theorem Fmt.infMag_lt (fmt : Fmt) : fmt.infMag < 2 ^ (fmt.bits - 1) := by cases fmt <;> decide

/-- A significand `r` at shift `sh` has the pattern `sh * 2^fracBits + r`, also where `r` has just carried. -/
theorem Fmt.units_significand (fmt : Fmt) {sh r : Nat} (h1 : sh = 0 ∨ 2 ^ fmt.fracBits ≤ r)
    (h2 : r ≤ 2 ^ (fmt.fracBits + 1)) : fmt.units (sh * 2 ^ fmt.fracBits + r) = r * 2 ^ sh := by
  have hF : 0 < 2 ^ fmt.fracBits := Nat.two_pow_pos _
  rw [Nat.pow_succ] at h2
  unfold Fmt.units
  rw [Nat.shiftRight_eq_div_pow]
  generalize 2 ^ fmt.fracBits = P at *
  have hdiv : (sh * P + r) / P = sh + r / P := by rw [Nat.add_comm, Nat.add_mul_div_right _ _ hF, Nat.add_comm]
  have hmod : (sh * P + r) % P = r % P := by rw [Nat.add_comm, Nat.add_mul_mod_self_right]
  rw [hdiv, hmod]
  by_cases hr : r < P
  · obtain rfl : sh = 0 := by omega
    rw [Nat.div_eq_of_lt hr]; simp
  · by_cases hr2 : r < 2 * P
    · have h1' : r / P = 1 := Nat.div_eq_of_lt_le (by omega) (by omega)
      have h2' : r % P = r - P := by have := Nat.div_add_mod r P; rw [h1'] at this; omega
      rw [h1', h2', if_neg (by omega), Nat.shiftLeft_eq, show sh + 1 - 1 = sh by omega,
        show P + (r - P) = r by omega]
    · obtain rfl : r = 2 * P := by omega
      rw [Nat.mul_div_cancel _ hF, Nat.mul_mod_left, if_neg (by omega), Nat.shiftLeft_eq,
        show sh + 2 - 1 = sh + 1 by omega, Nat.pow_succ]
      ring

/-- Every pattern is a significand at a shift. -/
theorem Fmt.exists_significand (fmt : Fmt) (g : Nat) : ∃ sh r, g = sh * 2 ^ fmt.fracBits + r ∧
    (sh = 0 ∨ 2 ^ fmt.fracBits ≤ r) ∧ r < 2 ^ (fmt.fracBits + 1) := by
  have hF : 0 < 2 ^ fmt.fracBits := Nat.two_pow_pos _
  rw [Nat.pow_succ]
  generalize 2 ^ fmt.fracBits = P at *
  have h := Nat.div_add_mod g P
  have h' := Nat.mod_lt g hF
  rcases Nat.eq_zero_or_pos (g / P) with h0 | h0
  · exact ⟨0, g, by simp, Or.inl rfl, by rw [h0] at h; omega⟩
  · obtain ⟨k, hk⟩ : ∃ k, g / P = k + 1 := ⟨g / P - 1, by omega⟩
    refine ⟨k, P + g % P, ?_, Or.inr (by omega), by omega⟩
    rw [hk] at h; nlinarith

theorem Fmt.units_lt_succ (fmt : Fmt) (g : Nat) : fmt.units g < fmt.units (g + 1) := by
  obtain ⟨sh, r, rfl, h1, h2⟩ := fmt.exists_significand g
  rw [fmt.units_significand h1 (by omega), Nat.add_assoc, fmt.units_significand (by omega) (by omega), Nat.add_mul]
  have := Nat.two_pow_pos sh
  omega

/-- Patterns count up with their values. -/
theorem Fmt.units_strictMono (fmt : Fmt) : StrictMono fmt.units := strictMono_nat_of_lt_succ fmt.units_lt_succ

/-- A count of units that is no multiple of `2^sh` belongs to a smaller significand. -/
theorem Fmt.units_small_or_multiple (fmt : Fmt) (g sh : Nat) :
    (∃ m, fmt.units g = m * 2 ^ sh) ∨ fmt.units g < 2 ^ fmt.fracBits * 2 ^ sh := by
  obtain ⟨sh', r, rfl, h1, h2⟩ := fmt.exists_significand g
  rw [fmt.units_significand h1 (by omega)]
  rcases Nat.lt_or_ge sh' sh with h | h
  · right
    calc r * 2 ^ sh' < 2 ^ (fmt.fracBits + 1) * 2 ^ sh' := Nat.mul_lt_mul_of_pos_right h2 (Nat.two_pow_pos _)
      _ = 2 ^ (fmt.fracBits + (sh' + 1)) := by rw [← Nat.pow_add]; congr 1; omega
      _ ≤ 2 ^ (fmt.fracBits + sh) := Nat.pow_le_pow_right (by omega) (by omega)
      _ = _ := Nat.pow_add _ _ _
  · left
    exact ⟨r * 2 ^ (sh' - sh), by rw [Nat.mul_assoc, ← Nat.pow_add, Nat.sub_add_cancel h]⟩

/-- `roundHalfEven n d` is a nearest integer to `n / d`, and the even one of two. -/
theorem roundHalfEven_nearest (n : Nat) {d : Nat} (hd : 0 < d) (m : Nat) :
    ((n : Int) - roundHalfEven n d * d).natAbs ≤ ((n : Int) - m * d).natAbs ∧
    (((n : Int) - roundHalfEven n d * d).natAbs = ((n : Int) - m * d).natAbs → m ≠ roundHalfEven n d →
      roundHalfEven n d % 2 = 0) := by
  have hmod := Nat.mod_lt n hd
  have hq : (n : Int) - (n / d : Nat) * d = (n % d : Nat) := by
    have := Nat.div_add_mod n d
    have : (n : Int) = d * (n / d : Nat) + (n % d : Nat) := by exact_mod_cast this.symm
    rw [this]; ring
  have hq1 : (n : Int) - (n / d + 1 : Nat) * d = (n % d : Nat) - d := by
    rw [← hq]; push_cast; ring
  have hm : (n : Int) - m * d = (n % d : Nat) + ((n / d : Nat) - m) * d := by rw [← hq]; ring
  have far : m = n / d ∨ m = n / d + 1 ∨ (d : Int) ≤ ((n / d : Nat) - (m : Int)) * d ∨
      ((n / d : Nat) - (m : Int)) * d ≤ -2 * d := by
    rcases Nat.lt_trichotomy m (n / d) with h | h | h
    · right; right; left; nlinarith [(by omega : (1 : Int) ≤ (n / d : Nat) - (m : Int))]
    · left; exact h
    · rcases Nat.lt_or_ge (n / d + 1) m with h' | h'
      · right; right; right; nlinarith [(by omega : ((n / d : Nat) : Int) - (m : Int) ≤ -2)]
      · right; left; omega
  rcases far with rfl | rfl | h | h
  · unfold roundHalfEven; split
    · rw [hq1, hq]; omega
    · rw [hq]; omega
  · unfold roundHalfEven; split
    · rw [hq1]; omega
    · rw [hq1, hq]; omega
  · rw [hm]; unfold roundHalfEven; split
    · rw [hq1]; omega
    · rw [hq]; omega
  · rw [hm]; unfold roundHalfEven; split
    · rw [hq1]; omega
    · rw [hq]; omega

theorem roundHalfEven_le (n d : Nat) : roundHalfEven n d * d ≤ n + d := by
  have h := Nat.div_add_mod n d
  have h' : n / d * d = d * (n / d) := Nat.mul_comm _ _
  unfold roundHalfEven
  split
  · rw [Nat.add_mul]; omega
  · omega

theorem le_roundHalfEven (n d : Nat) : n / d ≤ roundHalfEven n d := by unfold roundHalfEven; split <;> omega

theorem roundHalfEven_le_succ (n d : Nat) : roundHalfEven n d ≤ n / d + 1 := by unfold roundHalfEven; split <;> omega

/-- `roundMag` with its shift named: the quotient fills the significand, unless the result is subnormal. -/
theorem Fmt.roundMag_shift (fmt : Fmt) (n d : Nat) : ∃ sh,
    fmt.roundMag n d = min (sh * 2 ^ fmt.fracBits + roundHalfEven n (d * 2 ^ sh)) fmt.infMag ∧
    (sh = 0 ∨ 2 ^ fmt.fracBits ≤ n / (d * 2 ^ sh)) ∧ n / (d * 2 ^ sh) < 2 ^ (fmt.fracBits + 1) := by
  refine ⟨Nat.log2 (n / d) - fmt.fracBits, by simp [Fmt.roundMag, Nat.shiftLeft_eq], ?_, ?_⟩
  · rcases Nat.eq_zero_or_pos (Nat.log2 (n / d) - fmt.fracBits) with h | h
    · exact Or.inl h
    · right
      have hne : n / d ≠ 0 := by rintro h0; rw [h0] at h; simp at h
      rw [← Nat.div_div_eq_div_mul, Nat.le_div_iff_mul_le (Nat.two_pow_pos _), ← Nat.pow_add,
        show fmt.fracBits + (Nat.log2 (n / d) - fmt.fracBits) = Nat.log2 (n / d) by omega]
      exact Nat.log2_self_le hne
  · rw [← Nat.div_div_eq_div_mul, Nat.div_lt_iff_lt_mul (Nat.two_pow_pos _), ← Nat.pow_add]
    rcases Nat.eq_zero_or_pos (n / d) with h | h
    · rw [h]; exact Nat.two_pow_pos _
    · exact (Nat.log2_lt (by omega)).1 (by omega)

end Sys2Proof
end

