-- ==== Sys2Proof/Laws/PerInstr.lean ====
section
/-! SUPPORT. Statements made per instruction. -/

namespace Sys2Proof.Laws.EncodeDecode

/-- The word of a command decodes to that command (R70 to R74, R79). -/
def Statement (i : Instr) : Prop := decode (encode i) = .ok i

theorem nop : Statement .nop := rfl

theorem qencW2 (sc : Scale) (fmt : Fmt) : Statement (.qencW2 sc fmt) := by cases sc <;> cases fmt <;> rfl

theorem qencW3 (sc : Scale) (fmt : Fmt) : Statement (.qencW3 sc fmt) := by cases sc <;> cases fmt <;> rfl

theorem qencW4 (sc : Scale) (fmt : Fmt) : Statement (.qencW4 sc fmt) := by cases sc <;> cases fmt <;> rfl

theorem qdecW2 (sc : Scale) (fmt : Fmt) : Statement (.qdecW2 sc fmt) := by cases sc <;> cases fmt <;> rfl

theorem qdecW3 (sc : Scale) (fmt : Fmt) : Statement (.qdecW3 sc fmt) := by cases sc <;> cases fmt <;> rfl

theorem qdecW4 (sc : Scale) (fmt : Fmt) : Statement (.qdecW4 sc fmt) := by cases sc <;> cases fmt <;> rfl

theorem fenc : Statement .fenc := rfl

theorem fdec : Statement .fdec := rfl

end Sys2Proof.Laws.EncodeDecode
end

