-- ==== Sys2Proof/Laws/Port.lean ====
section
/-! SUPPORT. The laws of the Host's port: the register map has one offset for each register, which accesses have a
meaning, and what an accepted write leaves alone. -/

namespace Sys2Proof.Machine

/-- The offset of a named register (R53). The reserved offsets are many; 0x1FC stands for them. -/
def Reg.offset : Reg → Nat
  | .ctrl => 0x000
  | .status => 0x004
  | .cmd => 0x008
  | .flen => 0x00C
  | .qinLo => 0x010
  | .qinHi => 0x014
  | .qb => 0x018
  | .qoutLo => 0x01C
  | .qoutHi => 0x020
  | .dinLo i => 0x040 + 8 * i
  | .dinHi i => 0x044 + 8 * i
  | .fin j => 0x080 + 4 * j
  | .bin j => 0x098 + 4 * j
  | .cin => 0x0A8
  | .framew m => 0x100 + 4 * m
  | .doutLo i => 0x140 + 8 * i
  | .doutHi i => 0x144 + 8 * i
  | .fout j => 0x180 + 4 * j
  | .bout j => 0x198 + 4 * j
  | .cout => 0x1A8
  | .reserved => 0x1FC

/-- Every named register stands at its offset (R53). -/
@[simp] theorem regAt_offset (r : Reg) : regAt r.offset = r := by
  cases r <;> first | rfl | (rename_i i; fin_cases i <;> rfl)

/-- A named register stands at no other word of the window (R53). -/
theorem offset_regAt {off : Nat} (h : windowOffset off) (hr : regAt off ≠ .reserved) : (regAt off).offset = off := by
  have key : ∀ k : Fin 128, regAt (4 * k) ≠ .reserved → (regAt (4 * k)).offset = 4 * k := by decide
  obtain ⟨k, rfl⟩ : ∃ k, off = 4 * k := ⟨off / 4, by omega⟩
  exact key ⟨k, by omega⟩ hr

/-- Two words of the window that hold the same named register are one. -/
theorem regAt_inj {off off' : Nat} (h : windowOffset off) (h' : windowOffset off') (hr : regAt off ≠ .reserved)
    (he : regAt off = regAt off') : off = off' := by
  rw [← offset_regAt h hr, he, offset_regAt h' (he ▸ hr)]

/-- An access has a meaning exactly when it is a word access at a legal offset (R51, R52). -/
theorem refusal_eq_none (a : Access) : a.refusal = none ↔
    (∃ n, windowOffset n ∧ a = .read n .word) ∨ (∃ n d, windowOffset n ∧ a = .write n .word d) := by
  constructor
  · intro h
    unfold Access.refusal at h
    split at h
    · simp at h
    split at h
    · simp at h
    split at h
    · simp at h
    rename_i hs h4 hw
    cases a with
    | read off size =>
      simp only [Access.size, ne_eq, not_not] at hs
      simp only [Access.off] at h4 hw
      exact Or.inl ⟨off.toNat, by constructor <;> omega, by rw [hs, Int.toNat_of_nonneg (by omega)]⟩
    | write off size d =>
      simp only [Access.size, ne_eq, not_not] at hs
      simp only [Access.off] at h4 hw
      exact Or.inr ⟨off.toNat, d, by constructor <;> omega, by rw [hs, Int.toNat_of_nonneg (by omega)]⟩
  · rintro (⟨n, hn, rfl⟩ | ⟨n, d, hn, rfl⟩)
    all_goals
      have h4 : (n : Int) % 4 = 0 := by omega
      have hw : ¬ ((n : Int) < 0 ∨ (n : Int) > 0x1FC) := by omega
      unfold Access.refusal
      exact (if_neg (by simp [Access.size])).trans ((if_neg (by simpa [Access.off] using h4)).trans (if_neg hw))

/-- A read returns one word and changes nothing else but, when it draws one, the count of free values (R58, R177). -/
theorem hostRead_eq (s : State) (off : Nat) :
    hostRead s off = { s with reads := (hostRead s off).reads, draws := (hostRead s off).draws } := by
  unfold hostRead
  split <;> rfl

/-- An accepted write leaves the output registers and the model's own fields alone (R55). -/
theorem writeReg_eq (s : State) (d : Word) (r : Reg) : writeReg s d r = { s with
    policy := (writeReg s d r).policy, status := (writeReg s d r).status, pend := (writeReg s d r).pend
    flen := (writeReg s d r).flen, qin := (writeReg s d r).qin, qb := (writeReg s d r).qb
    frame := (writeReg s d r).frame, din := (writeReg s d r).din, fin := (writeReg s d r).fin
    bin := (writeReg s d r).bin, cin := (writeReg s d r).cin } := by
  cases r <;> rfl

/-- STATUS after an accepted write: only a write to STATUS or to CMD changes it (R56, R57). -/
theorem writeReg_status (s : State) (d : Word) (r : Reg) : (writeReg s d r).status =
    match r with
    | .status => s.status.clear d
    | .cmd => s.status.issue
    | _ => s.status := by
  cases r <;> rfl

theorem writeFramew_wf {fr : Memory} (h : fr.wf) (m : Fin 11) (d : Word) : (writeFramew fr m d).wf := by
  have hm := m.isLt
  unfold writeFramew
  split
  · exact Memory.write_wf (Memory.write_wf h (by unfold frameLength; omega) _) (by unfold frameLength; omega) _
  · exact Memory.write_wf (Memory.write_wf (Memory.write_wf (Memory.write_wf h (by unfold frameLength; omega) _)
      (by unfold frameLength; omega) _) (by unfold frameLength; omega) _) (by unfold frameLength; omega) _

theorem writeReg_frame_wf {s : State} (h : s.frame.wf) (d : Word) (r : Reg) : (writeReg s d r).frame.wf := by
  cases r <;> first | exact h | exact writeFramew_wf h _ d

/-- A frame byte after a write to FRAMEW[m] (R59). -/
theorem read_writeFramew (fr : Memory) (m : Fin 11) (d : Word) (a : Nat) :
    (writeFramew fr m d).read a =
      if a = 4 * m then d.extractLsb' 24 8
      else if a = 4 * m + 1 then d.extractLsb' 16 8
      else if m.val = 10 then fr.read a
      else if a = 4 * m + 2 then d.extractLsb' 8 8
      else if a = 4 * m + 3 then d.extractLsb' 0 8
      else fr.read a := by
  unfold writeFramew
  by_cases hm : m.val = 10
  · rw [if_pos hm]
    simp only [Memory.read_write, hm]
    split_ifs <;> first | rfl | omega
  · rw [if_neg hm]
    simp only [Memory.read_write, if_neg hm]
    split_ifs <;> first | rfl | omega

/-! ## Halves of 64-bit registers (R61) -/

theorem append_halves (v : DWord) : v.extractLsb' 32 32 ++ v.extractLsb' 0 32 = v := by
  apply BitVec.eq_of_getLsbD_eq
  intro i hi
  rw [BitVec.getLsbD_append, BitVec.getLsbD_extractLsb', BitVec.getLsbD_extractLsb']
  by_cases h : i < 32
  · simp [h]
  · have : i - 32 < 32 := by omega
    simp [h, this]; congr 1; omega

theorem extract_hi_append (a b : Word) : (a ++ b).extractLsb' 32 32 = a := by
  apply BitVec.eq_of_getLsbD_eq
  intro i hi
  rw [BitVec.getLsbD_extractLsb', BitVec.getLsbD_append]
  simp [hi]

theorem extract_lo_append (a b : Word) : (a ++ b).extractLsb' 0 32 = b := by
  apply BitVec.eq_of_getLsbD_eq
  intro i hi
  rw [BitVec.getLsbD_extractLsb', BitVec.getLsbD_append]
  simp [hi]

@[simp] theorem loHalf_setLo (v : DWord) (d : Word) : loHalf (setLo v d) = d := extract_lo_append _ _
@[simp] theorem hiHalf_setLo (v : DWord) (d : Word) : hiHalf (setLo v d) = hiHalf v := extract_hi_append _ _
@[simp] theorem loHalf_setHi (v : DWord) (d : Word) : loHalf (setHi v d) = loHalf v := extract_lo_append _ _
@[simp] theorem hiHalf_setHi (v : DWord) (d : Word) : hiHalf (setHi v d) = d := extract_hi_append _ _

/-- Low half, then high half. -/
theorem setHi_setLo (v x : DWord) : setHi (setLo x (v.extractLsb' 0 32)) (v.extractLsb' 32 32) = v := by
  simp only [setHi, loHalf_setLo, append_halves]

/-- High half, then low half. -/
theorem setLo_setHi (v x : DWord) : setLo (setHi x (v.extractLsb' 32 32)) (v.extractLsb' 0 32) = v := by
  simp only [setLo, hiHalf_setHi, append_halves]

/-! ## What a read returns after a write -/

@[simp] theorem readReg_withTurns (s : State) (ts : List Turn) (r : Reg) : readReg (s.withTurns ts) r = readReg s r := by
  cases r <;> rfl

theorem readReg_other_qin (s : State) (v : DWord) (r' : Reg) (h1 : r' = .qinLo → loHalf v = loHalf s.qin) (h2 : r' = .qinHi → hiHalf v = hiHalf s.qin) : readReg { s with qin := v } r' = readReg s r' := by
  cases r'
  case qinLo => exact h1 rfl
  case qinHi => exact h2 rfl
  all_goals rfl

theorem readReg_other_ctrl (s : State) (v) (r' : Reg) (h1 : r' ≠ .ctrl) : readReg { s with policy := v } r' = readReg s r' := by
  cases r'
  case ctrl => exact absurd rfl h1
  all_goals rfl

theorem readReg_other_status (s : State) (v) (r' : Reg) (h1 : r' ≠ .status) : readReg (s.withStatus v) r' = readReg s r' := by
  cases r'
  case status => exact absurd rfl h1
  all_goals rfl

theorem readReg_other_flen (s : State) (v) (r' : Reg) (h1 : r' ≠ .flen) : readReg { s with flen := v } r' = readReg s r' := by
  cases r'
  case flen => exact absurd rfl h1
  all_goals rfl

theorem readReg_other_qb (s : State) (v) (r' : Reg) (h1 : r' ≠ .qb) : readReg { s with qb := v } r' = readReg s r' := by
  cases r'
  case qb => exact absurd rfl h1
  all_goals rfl

theorem readReg_other_cin (s : State) (v) (r' : Reg) (h1 : r' ≠ .cin) : readReg { s with cin := v } r' = readReg s r' := by
  cases r'
  case cin => exact absurd rfl h1
  all_goals rfl

theorem readReg_other_din (s : State) (i : Fin 8) (r' : Reg) (v : DWord) (h1 : ∀ j, r' = .dinLo j → i.val = j.val → loHalf v = loHalf s.din[i]) (h2 : ∀ j, r' = .dinHi j → i.val = j.val → hiHalf v = hiHalf s.din[i]) :
    readReg { s with din := s.din.set i v } r' = readReg s r' := by
  cases r'
  case dinLo j =>
    simp only [readReg, Fin.getElem_fin, Vector.getElem_set]
    split
    · rename_i h; rw [h1 j rfl h]; simp [h]
    · rfl
  case dinHi j =>
    simp only [readReg, Fin.getElem_fin, Vector.getElem_set]
    split
    · rename_i h; rw [h2 j rfl h]; simp [h]
    · rfl
  all_goals rfl

theorem readReg_other_fin (s : State) (v : Word) (i : Fin 6) (r' : Reg) (h1 : r' ≠ .fin i) :
    readReg { s with fin := s.fin.set i v } r' = readReg s r' := by
  cases r'
  case fin j =>
    simp only [readReg, Fin.getElem_fin, Vector.getElem_set]
    rw [if_neg (fun h => h1 (by rw [Fin.ext h]))]
  all_goals rfl

theorem readReg_other_bin (s : State) (v : Byte) (i : Fin 4) (r' : Reg) (h1 : r' ≠ .bin i) :
    readReg { s with bin := s.bin.set i v } r' = readReg s r' := by
  cases r'
  case bin j =>
    simp only [readReg, Fin.getElem_fin, Vector.getElem_set]
    rw [if_neg (fun h => h1 (by rw [Fin.ext h]))]
  all_goals rfl

theorem readReg_other_frame (s : State) (d : Word) (m : Fin 11) (r' : Reg) (h1 : r' ≠ .framew m) :
    readReg { s with frame := writeFramew s.frame m d } r' = readReg s r' := by
  cases r'
  case framew m' =>
    have hmm : m.val ≠ m'.val := fun e => h1 (by rw [Fin.ext e])
    have hm := m.isLt
    have hm' := m'.isLt
    have hb : ∀ k, k < 4 → 4 * m'.val + k < 42 → (writeFramew s.frame m d).read (4 * m' + k) = s.frame.read (4 * m' + k) := by
      intro k hk hk'
      rw [read_writeFramew]
      split_ifs <;> first | rfl | omega
    simp only [readReg, readFramew]
    split
    · rename_i h10
      have a := hb 0 (by omega) (by omega); have b := hb 1 (by omega) (by omega)
      rw [h10] at a b
      rw [a, b]
    · have a := hb 0 (by omega) (by omega); have b := hb 1 (by omega) (by omega)
      have c := hb 2 (by omega) (by omega); have e := hb 3 (by omega) (by omega)
      simp only [Nat.add_zero] at a
      rw [a, b, c, e]
  all_goals rfl

/-- An accepted write to a register other than CMD leaves what every other register reads as (R53). -/
theorem readReg_writeReg_other (s : State) (d : Word) (r r' : Reg) (hne : r ≠ r') (hc : r ≠ .cmd) : readReg (writeReg s d r) r' = readReg s r' := by
  cases r
  case dinLo i => exact readReg_other_din s i r' _ (fun j h e => absurd (by rw [h, Fin.ext e]) hne) (fun j h e => hiHalf_setLo _ _)
  case dinHi i => exact readReg_other_din s i r' _ (fun j h e => loHalf_setHi _ _) (fun j h e => absurd (by rw [h, Fin.ext e]) hne)
  case fin i => exact readReg_other_fin s d i r' (Ne.symm hne)
  case bin i => exact readReg_other_bin s _ i r' (Ne.symm hne)
  case framew m => exact readReg_other_frame s d m r' (Ne.symm hne)
  case cmd => exact absurd rfl hc
  case ctrl => exact readReg_other_ctrl s _ r' (Ne.symm hne)
  case status => exact readReg_other_status s _ r' (Ne.symm hne)
  case flen => exact readReg_other_flen s _ r' (Ne.symm hne)
  case qb => exact readReg_other_qb s _ r' (Ne.symm hne)
  case cin => exact readReg_other_cin s _ r' (Ne.symm hne)
  case qinLo => exact readReg_other_qin s _ r' (fun h => absurd h.symm hne) (fun _ => hiHalf_setLo _ _)
  case qinHi => exact readReg_other_qin s _ r' (fun _ => loHalf_setHi _ _) (fun h => absurd h.symm hne)
  all_goals rfl

/-- The four bytes of a word, most significant first (R59). -/
theorem append_bytes (d : Word) : d.extractLsb' 24 8 ++ d.extractLsb' 16 8 ++ d.extractLsb' 8 8 ++ d.extractLsb' 0 8 = d := by
  ext i hi
  simp
  grind

/-- The two upper bytes of a word (R59). -/
theorem append_upper_bytes (d : Word) : d.extractLsb' 24 8 ++ d.extractLsb' 16 8 ++ 0x0000#16 = d &&& 0xFFFF0000#32 := by
  apply BitVec.eq_of_getLsbD_eq
  intro i hi
  simp only [BitVec.getLsbD_append, BitVec.getLsbD_extractLsb', BitVec.getLsbD_and]
  interval_cases i <;> simp

/-- The low byte of a word (R62). -/
theorem setWidth_low_byte (d : Word) : (d.extractLsb' 0 8).setWidth 32 = d &&& 0x000000FF#32 := by
  apply BitVec.eq_of_getLsbD_eq
  intro i hi
  simp only [BitVec.getLsbD_setWidth, BitVec.getLsbD_extractLsb', BitVec.getLsbD_and]
  interval_cases i <;> simp

end Sys2Proof.Machine
end

