-- ==== Sys2Proof/Laws/Step.lean ====
section
/-! SUPPORT. What one step can do, said once. -/

namespace Sys2Proof.Machine

@[simp] theorem State.withTurns_self (s : State) : s.withTurns s.turns = s := rfl

/-- When the Engine moves next, the step is the Engine's. -/
theorem step_engineNext {s : State} {ts : List Turn} (h : s.engineNext ts) :
    step s = takeTurn .engine (s.withTurns ts) := by
  rcases h with h | ⟨h, rfl⟩
  · simp only [step, nextTurn, h]
  · have hs : s.withTurns [] = s := by rw [← h]; rfl
    simp only [step, nextTurn, h, hs]

/-- When a turn is listed, the step is that turn's. -/
theorem step_turn {s : State} {t : Turn} {ts : List Turn} (h : s.turns = t :: ts) :
    step s = takeTurn t (s.withTurns ts) := by
  simp only [step, nextTurn, h]

/-- A listed Host access that has a meaning, with RESET released, has its effect. -/
theorem step_host {s : State} {a : Access} {ts : List Turn} (h : s.turns = .host a :: ts)
    (hr : s.resetLine = false) (ha : a.refusal = none) : step s = .next (a.effect (s.withTurns ts)) := by
  rw [step_turn h]
  simp [takeTurn, hostStep, hr, ha]

/-- A listed HostWrite of the window. -/
theorem step_write {s : State} {off : Nat} {d : Word} {ts : List Turn} (h : s.turns = Turn.write off d :: ts)
    (hr : s.resetLine = false) (hw : windowOffset off) : step s = .next (hostWrite (s.withTurns ts) off d) := by
  rw [step_host h hr ((refusal_eq_none _).2 (Or.inr ⟨off, d, hw, rfl⟩))]
  rfl

/-- A listed HostRead of the window. -/
theorem step_read {s : State} {off : Nat} {ts : List Turn} (h : s.turns = Turn.read off :: ts)
    (hr : s.resetLine = false) (hw : windowOffset off) : step s = .next (hostRead (s.withTurns ts) off) := by
  rw [step_host h hr ((refusal_eq_none _).2 (Or.inl ⟨off, hw, rfl⟩))]
  rfl

/-- The pending word is a command's, with its meaning, or is illegal, with error ILL (R175). -/
theorem runPending_cases {s t : State} (h : runPending s = .next t) :
    (∃ i, decode s.pend = .ok i ∧ exec i s = .next t) ∨
    (∃ e, decode s.pend = .error e ∧ t = s.raiseError .ill noField) := by
  unfold runPending at h
  split at h
  · rename_i i hi
    exact Or.inl ⟨i, hi, h⟩
  · rename_i e he
    refine Or.inr ⟨e, he, ?_⟩
    simp only [execIllegal, Host.Outcome.next.injEq] at h
    exact h.symm

/-- Every word in PEND has an outcome, and it is a next state (R154). -/
theorem runPending_next (s : State) : ∃ t, runPending s = .next t := by
  unfold runPending
  split
  · exact exec_next _ s
  · exact ⟨_, rfl⟩

/-- What one step can do. -/
theorem step_cases {s t : State} (h : step s = .next t) :
    (∃ ts u, s.engineNext ts ∧ s.status.busy = true ∧ runPending (s.withTurns ts) = .next u ∧ t = u.complete) ∨
    (∃ ts, s.engineNext ts ∧ s.status.busy = false ∧ t = s.withTurns ts) ∨
    (∃ a ts, s.turns = .host a :: ts ∧ s.resetLine = false ∧ a.refusal = none ∧ t = a.effect (s.withTurns ts)) ∨
    (∃ ts, s.turns = .assertReset :: ts ∧ t = (s.withTurns ts).assertReset) ∨
    (∃ ts, s.turns = .releaseReset :: ts ∧ t = (s.withTurns ts).withResetLine false) := by
  have engine : ∀ ts, s.engineNext ts →
      (∃ u, s.status.busy = true ∧ runPending (s.withTurns ts) = .next u ∧ t = u.complete) ∨
      (s.status.busy = false ∧ t = s.withTurns ts) := by
    intro ts hts
    rw [step_engineNext hts] at h
    by_cases hb : s.status.busy = true
    · left
      obtain ⟨u, hu⟩ := runPending_next (s.withTurns ts)
      simp only [takeTurn, State.withTurns_status, hb, if_true, engineStep, hu, thenComplete,
        Host.Outcome.next.injEq] at h
      exact ⟨u, hb, hu, h.symm⟩
    · right
      simp only [takeTurn, State.withTurns_status, hb, Bool.false_eq_true, if_false, Host.Outcome.next.injEq] at h
      exact ⟨by simpa using hb, h.symm⟩
  cases hts : s.turns with
  | nil =>
    rcases engine [] (Or.inr ⟨hts, rfl⟩) with ⟨u, hu⟩ | hu
    · exact Or.inl ⟨[], u, Or.inr ⟨hts, rfl⟩, hu⟩
    · exact Or.inr (Or.inl ⟨[], Or.inr ⟨hts, rfl⟩, hu⟩)
  | cons t0 ts =>
    cases t0 with
    | engine =>
      rcases engine ts (Or.inl hts) with ⟨u, hu⟩ | hu
      · exact Or.inl ⟨ts, u, Or.inl hts, hu⟩
      · exact Or.inr (Or.inl ⟨ts, Or.inl hts, hu⟩)
    | host a =>
      refine Or.inr (Or.inr (Or.inl ⟨a, ts, rfl, ?_⟩))
      rw [step_turn hts] at h
      cases hr : s.resetLine <;> cases ha : a.refusal <;> simp [takeTurn, hostStep, hr, ha] at h
      exact ⟨rfl, rfl, h.symm⟩
    | assertReset =>
      rw [step_turn hts] at h
      simp only [takeTurn, Host.Outcome.next.injEq] at h
      exact Or.inr (Or.inr (Or.inr (Or.inl ⟨ts, rfl, h.symm⟩)))
    | releaseReset =>
      rw [step_turn hts] at h
      simp only [takeTurn, Host.Outcome.next.injEq] at h
      exact Or.inr (Or.inr (Or.inr (Or.inr ⟨ts, rfl, h.symm⟩)))

/-- What a Host access that has a meaning can do (R58, R176). -/
theorem effect_cases {a : Access} (ha : a.refusal = none) (s : State) :
    (∃ n, windowOffset n ∧ a = .read n .word ∧ a.effect s = hostRead s n) ∨
    (∃ n d, windowOffset n ∧ a = .write n .word d ∧ s.status.busy = true ∧ a.effect s = s.hazard) ∨
    (∃ n d, windowOffset n ∧ a = .write n .word d ∧ s.status.busy = false ∧ a.effect s = writeReg s d (regAt n)) := by
  rcases (refusal_eq_none a).1 ha with ⟨n, hn, rfl⟩ | ⟨n, d, hn, rfl⟩
  · exact Or.inl ⟨n, hn, rfl, rfl⟩
  · by_cases hb : s.status.busy = true
    · exact Or.inr (Or.inl ⟨n, d, hn, rfl, hb, by simp [Access.effect, hostWrite, hb]⟩)
    · exact Or.inr (Or.inr ⟨n, d, hn, rfl, by simpa using hb, by simp [Access.effect, hostWrite, hb]⟩)

theorem effect_keep {a : Access} (ha : a.refusal = none) (s : State) :
    (a.effect s).resetLine = s.resetLine ∧ (a.effect s).turns = s.turns := by
  rcases effect_cases ha s with ⟨n, -, -, h⟩ | ⟨n, d, -, -, -, h⟩ | ⟨n, d, -, -, -, h⟩ <;> rw [h]
  · rw [hostRead_eq]; exact ⟨rfl, rfl⟩
  · exact ⟨rfl, rfl⟩
  · rw [writeReg_eq]; exact ⟨rfl, rfl⟩

/-- STATUS after a Host access: as it was, or S_HAZ set, or a write to STATUS, or a command issued (R56, R57, R176). -/
theorem effect_status {a : Access} (ha : a.refusal = none) (s : State) :
    (a.effect s).status = s.status ∨ (s.status.busy = true ∧ (a.effect s).status = s.status.hazard) ∨
    (s.status.busy = false ∧ ∃ d, a = .write ((0x004 : Nat) : Int) .word d ∧ (a.effect s).status = s.status.clear d) ∨
    (s.status.busy = false ∧ ∃ d, a = .write ((0x008 : Nat) : Int) .word d ∧ (a.effect s).status = s.status.issue ∧ (a.effect s).pend = d) := by
  rcases effect_cases ha s with ⟨n, -, -, h⟩ | ⟨n, d, -, -, hb, h⟩ | ⟨n, d, hw, rfl, hb, h⟩ <;> rw [h]
  · left; rw [hostRead_eq]
  · right; left; exact ⟨hb, rfl⟩
  · rw [writeReg_status]
    by_cases h1 : regAt n = .status
    · right; right; left
      have := offset_regAt hw (by rw [h1]; simp)
      rw [h1] at this
      exact ⟨hb, d, by rw [← this]; rfl, by rw [h1]⟩
    · by_cases h2 : regAt n = .cmd
      · right; right; right
        have := offset_regAt hw (by rw [h2]; simp)
        rw [h2] at this
        exact ⟨hb, d, by rw [← this]; rfl, by rw [h2], by rw [h2]; rfl⟩
      · left; split <;> first | rfl | contradiction

/-- A run of one more step. -/
theorem run_succ (n : Nat) {s u : State} (hu : step s = .next u) : Sys2Proof.core.run (n+1) s = Sys2Proof.core.run n u := by
  have h : Sys2Proof.core.step s = .next u := hu
  simp only [Host.Core.run, h]

/-- An accepted write to a named register, at that register's offset (R53). -/
theorem step_writeReg {s : State} {off : Nat} {d : Word} {ts : List Turn} (r : Reg) (hr : s.resetLine = false)
    (hb : s.status.busy = false) (h : s.turns = Turn.write off d :: ts) (ho : off = r.offset) :
    step s = .next (writeReg (s.withTurns ts) d r) := by
  have hw : windowOffset off := by subst ho; cases r <;> simp [Reg.offset] <;> omega
  rw [step_write h hr hw, ho]
  simp [hostWrite, hb]

/-- A listed HostWrite that answers a next state was a legal one, made while RESET was released. -/
theorem step_write_inv {s t : State} {off : Nat} {d : Word} {ts : List Turn} (hts : s.turns = Turn.write off d :: ts)
    (h : step s = .next t) : windowOffset off ∧ s.resetLine = false ∧ t = hostWrite (s.withTurns ts) off d := by
  rcases step_cases h with ⟨ts', u, he, -⟩ | ⟨ts', he, -⟩ | ⟨a, ts', he, hr, ha, rfl⟩ | ⟨ts', he, -⟩ | ⟨ts', he, -⟩
  all_goals try (simp [State.engineNext, hts, Turn.write] at he; done)
  rw [hts] at he
  simp only [Turn.write, List.cons.injEq, Turn.host.injEq] at he
  obtain ⟨rfl, rfl⟩ := he
  rcases (refusal_eq_none _).1 ha with ⟨n, hn, h⟩ | ⟨n, d', hn, h⟩
  · simp at h
  · simp at h; obtain ⟨rfl, rfl⟩ := h; exact ⟨hn, hr, rfl⟩

end Sys2Proof.Machine
end

