-- ==== Sys2Proof/Tests/Slice0.lean ====
section
/-! SUPPORT. The model's own tests. Expected values are worked out from the spec's text and from its vectors
(95_test_vectors.md), never from the model. Each `witness_` theorem shows operands and a state that meet every
hypothesis of the statement it is named after. -/

namespace Sys2Proof.Tests

open Sys2Proof.Machine

/-! ## Well-formedness: an ill-formed word for each check of `Legal` (R75, R76), and ill-formed accesses (R52) -/

theorem test_reserved_bits_illegal : Legal 0x00000100#32 = false ∧ Legal 0x80000001#32 = false := by decide

theorem test_reserved_op_illegal : Legal 0x00000005#32 = false ∧ Legal 0x0000000F#32 = false := by decide

theorem test_reserved_width_illegal : Legal 0x00000031#32 = false ∧ Legal 0x00000032#32 = false := by decide

theorem test_selector_bits_illegal :
    Legal 0x00000010#32 = false ∧ Legal 0x00000083#32 = false ∧ Legal 0x00000044#32 = false := by decide

theorem test_illegal_words_rejected_by_name :
    decode 0x80000001#32 = .error .reservedBits ∧ decode 0x00000005#32 = .error .reservedOp ∧
    decode 0x00000031#32 = .error .reservedWidth ∧ decode 0x00000044#32 = .error .selectorBits := by decide

theorem test_accesses_refused :
    (Access.read 0x010 .halfword).refusal = some (.accessSize .halfword) ∧
    (Access.write 0x010 .doubleword 0#32).refusal = some (.accessSize .doubleword) ∧
    (Access.read 0x012 .word).refusal = some (.misaligned 0x012) ∧
    (Access.read 0x200 .word).refusal = some (.outsideWindow 0x200) ∧
    (Access.read (-4) .word).refusal = some (.outsideWindow (-4)) ∧
    (Access.read 0x1FC .word).refusal = none ∧ (Access.read 0 .word).refusal = none := by decide

/-! ## Decoding: words written out bit by bit from R70 to R74: 31:8 = 0, FMT, SSEL, WSEL, OP -/

theorem test_decode_nop : decode 0b00000000000000000000000000000000#32 = .ok .nop := by decide

theorem test_decode_qencW2 : decode 0b00000000000000000000000011000001#32 = .ok (.qencW2 .s1M .f32) := by decide

theorem test_decode_qencW3 : decode 0b00000000000000000000000010010001#32 = .ok (.qencW3 .s100 .f32) := by decide

theorem test_decode_qencW4 : decode 0b00000000000000000000000001100001#32 = .ok (.qencW4 .s1M .f64) := by decide

theorem test_decode_qdecW2 : decode 0b00000000000000000000000000000010#32 = .ok (.qdecW2 .s100 .f64) := by decide

theorem test_decode_qdecW3 : decode 0b00000000000000000000000001010010#32 = .ok (.qdecW3 .s1M .f64) := by decide

theorem test_decode_qdecW4 : decode 0b00000000000000000000000010100010#32 = .ok (.qdecW4 .s100 .f32) := by decide

theorem test_decode_fenc : decode 0b00000000000000000000000000000011#32 = .ok .fenc := by decide

theorem test_decode_fdec : decode 0b00000000000000000000000000000100#32 = .ok .fdec := by decide

/-- QENC.W2.S100.F64 is 0x00000001 and QDEC.W4.S1M.F64 is 0x00000062 (R79). -/
theorem test_encode_examples :
    encode (.qencW2 .s100 .f64) = 0x00000001#32 ∧ encode (.qdecW4 .s1M .f64) = 0x00000062#32 := by decide

theorem test_table_word : decodeTableWord 32 0x62 = some (.qdecW4 .s1M .f64) ∧ decodeTableWord 33 0 = none := by decide

/-! ## Values of patterns -/

/-- 1.0 is 2^1074 units of 2^-1074, the smallest subnormal is one unit, and the sign is the top bit (G1). -/
theorem test_val_f64 :
    Fmt.f64.val 0x3FF0000000000000 = .finite false (2 ^ 1074) ∧ Fmt.f64.val 0x8000000000000001 = .finite true 1 ∧
    Fmt.f64.val 0xFFF0000000000000 = .inf true ∧ Fmt.f64.val 0x7FF8000000000000 = .nan := by decide +kernel

/-- The same of binary32 (G2). -/
theorem test_val_f32 :
    Fmt.f32.val 0xBF800000 = .finite true (2 ^ 149) ∧ Fmt.f32.val 0x00000001 = .finite false 1 ∧
    Fmt.f32.val 0x7F800000 = .inf false ∧ Fmt.f32.val 0xFFC00000 = .nan := by decide +kernel

/-! ## One step -/

/-- The state after one step. -/
def after (s : State) : Option State :=
  match step s with
  | .next t => some t
  | .fault _ => none
  | .refused _ => none

/-- The state that `c` is pending in, the Engine to move. -/
def pendingIn (s : State) (c : Nat) : State := s.withFetchWord 32 c

/-- NP-2: NOP clears what the last command reported and keeps the sticky S_FLEN. -/
theorem test_nop_NP2 :
    (after (pendingIn (State.reset.raiseError .flen noField) 0x00)).map (fun t => t.status.toWord) =
      some 0x00081F02#32 := by decide

/-- QE-1 (R101): binary64 123.45. -/
theorem test_qencW2_QE1 :
    (after (pendingIn { State.reset with qin := 0x405EDCCCCCCCCCCD#64, qb := 0xAAAAAAAA#32 } 0x01)).map
      (fun t => (t.qb, t.status.toWord)) = some (0x00003039#32, 0x00001F02#32) := by decide +kernel

/-- QE-28: binary32 3e38 overflows to infinity; CLAMP gives RRmax(2) and reports QINV. -/
theorem test_qencW2_QE28 :
    (after (pendingIn { State.reset with qin := 0xDEADBEEF7F61B1E6#64, policy := .clamp } 0x81)).map
      (fun t => (t.qb, t.status.toWord)) = some (0x0000FFFF#32, 0x00041F46#32) := by decide +kernel

/-- QE-15: one past RRmax(3) is OVF; under REJECT QB stays. -/
theorem test_qencW3_QE15 :
    (after (pendingIn { State.reset with qin := 0x41047AE147AE147B#64, qb := 0xAAAAAAAA#32, policy := .reject } 0x11)).map
      (fun t => (t.qb, t.status.toWord)) = some (0xAAAAAAAA#32, 0x00011F26#32) := by decide +kernel

/-- QE-17: -1.0 at width 3 is SGN; WRAP keeps the low 24 bits. -/
theorem test_qencW3_QE17 :
    (after (pendingIn { State.reset with qin := 0xBFF0000000000000#64 } 0x11)).map
      (fun t => (t.qb, t.status.toWord)) = some (0x00FFFF9C#32, 0x00021F02#32) := by decide +kernel

/-- QE-22: -2^31 - 1 is OVF at width 4, and WRAP gives 0x7FFFFFFF. -/
theorem test_qencW4_QE22 :
    (after (pendingIn { State.reset with qin := 0xC0A0C6F7A0D77B7C#64 } 0x61)).map
      (fun t => (t.qb, t.status.toWord)) = some (0x7FFFFFFF#32, 0x00011F02#32) := by decide +kernel

/-- QE-21: -2^31 is no event at width 4. -/
theorem test_qencW4_QE21 :
    (after (pendingIn { State.reset with qin := 0xC0A0C6F7A0B5ED8D#64, policy := .reject } 0x61)).map
      (fun t => (t.qb, t.status.toWord)) = some (0x80000000#32, 0x00001F02#32) := by decide +kernel

/-- QD-20: QB[31:16] is ignored at width 2. -/
theorem test_qdecW2_QD20 :
    (after (pendingIn { State.reset with qb := 0xDEAD3039#32 } 0x02)).map (fun t => (t.qout, t.status.toWord)) =
      some (0x405EDCCCCCCCCCCD#64, 0x00001F02#32) := by decide +kernel

/-- QD-19: a binary32 result is zero-extended. -/
theorem test_qdecW2_QD19 :
    (after (pendingIn { State.reset with qb := 0x00000001#32, qout := 0xFFFFFFFFFFFFFFFF#64 } 0x82)).map (fun t => t.qout) =
      some 0x000000003C23D70A#64 := by decide +kernel

/-- QD-9: the sign defect at width 3. -/
theorem test_qdecW3_QD9 :
    (after (pendingIn { State.reset with qb := 0x00FFFF9C#32 } 0x12)).map (fun t => t.qout) =
      some 0x41047AD947AE147B#64 := by decide +kernel

/-- QD-14: width 4 is signed. -/
theorem test_qdecW4_QD14 :
    (after (pendingIn { State.reset with qb := 0xFFFFFFFF#32 } 0x62)).map (fun t => t.qout) =
      some 0xBEB0C6F7A0B5ED8D#64 := by decide +kernel

/-- QD-16: binary32 -75.01. -/
theorem test_qdecW4_QD16 :
    (after (pendingIn { State.reset with qb := 0xFB877030#32 } 0xE2)).map (fun t => t.qout) =
      some 0x00000000C296051F#64 := by decide +kernel

/-- The inputs of FE-1. -/
def fe1 : State := { State.reset with
  din := #v[0x405EDCCCCCCCCCCD#64, 0x40934A3D70A3D70A#64, 0x40F81CD6E147AE14#64, 0xC040B95C182ECAEF#64,
    0xC051AADF3F961805#64, 0x4029000000000000#64, 0x0000000000000000#64, 0x40847ACCCCCCCCCD#64]
  fin := #v[0x41AC0000#32, 0x40500000#32, 0x42C80000#32, 0x3C23D70A#32, 0x4423D666#32, 0x3F800000#32]
  bin := #v[0x01#8, 0x7F#8, 0x80#8, 0xFF#8]
  cin := 0x12345678#32 }

/-- FE-1: the words of the frame window. -/
theorem test_fenc_FE1 :
    (after (pendingIn fe1 0x03)).map (fun t => (List.finRange 11).map (readFramew t.frame)) =
      some [0x303901E2#32, 0x4096B43F#32, 0xFE019F45#32, 0xFBC9A9CC#32, 0x04E20000#32, 0xFFFF0866#32, 0x01452710#32,
        0x0001FFFE#32, 0x0064017F#32, 0x80FF1234#32, 0x56780000#32] := by decide +kernel

/-- FE-2 under CLAMP: -12.5 in D5 and 700.0 in F1. The lowest field is reported, both flags are set. -/
theorem test_fenc_FE2 :
    (after (pendingIn { fe1 with
        policy := .clamp, din := fe1.din.set 5 0xC029000000000000#64, fin := fe1.fin.set 1 0x442F0000#32 } 0x03)).map
      (fun t => (readFramew t.frame 4, readFramew t.frame 6, t.flen, t.status.toWord)) =
      some (0x00000000#32, 0xFFFF2710#32, 42#8, 0x00030536#32) := by decide +kernel

/-- A frame whose bytes 8 to 11 are FE 01 9F 45, every other byte 0. -/
def d3Frame : Memory := Memory.writeGroup [] 8 4 0xFE019F45

/-- FD-1's D3, and COUT from bytes 38 to 41. -/
theorem test_fdec_FD1 :
    (after (pendingIn { State.reset with frame := d3Frame.writeGroup 38 4 0x12345678, flen := 42#8 } 0x04)).map
      (fun t => (t.dout[3], t.cout, t.status.toWord)) =
      some (0xC040B95C182ECAEF#64, 0x12345678#32, 0x00001F02#32) := by decide +kernel

/-- FD-2: a length of 40 is error FLEN, and no output changes. -/
theorem test_fdec_FD2 :
    (after (pendingIn { State.reset with frame := d3Frame, flen := 40#8 } 0x04)).map
      (fun t => (t.dout, t.status.toWord)) = some (State.reset.dout, 0x00081F56#32) := by decide +kernel

/-- IL-1: WSEL = 0b11. -/
theorem test_illegal_IL1 :
    (after (pendingIn State.reset 0x31)).map (fun t => (t.qb, t.status.toWord)) = some (0#32, 0x00101F16#32) := by decide

/-! ## The Host's port -/

/-- An idle state with the moves `ts` to come. -/
def idleWith (ts : List Turn) : State := { State.reset with turns := ts }

/-- A state with the moves `ts` to come, the command word `c` pending. -/
def busyWith (ts : List Turn) (c : Word) : State := { State.reset.issue c with turns := ts }

/-- R59: FRAMEW[10] keeps the two upper bytes, at frame bytes 40 and 41. -/
theorem test_write_framew10 :
    (after (idleWith [.write 0x128 0x5678ABCD#32])).map (fun t => (t.frame, readReg t (regAt 0x128))) =
      some ([(40, 0x56#8), (41, 0x78#8)], 0x56780000#32) := by decide

/-- R61: DIN[7]_HI is bits 63:32 of DIN[7]. -/
theorem test_write_din7_hi :
    (after (idleWith [.write 0x07C 0x40847ACC#32])).map (fun t => t.din[7]) = some 0x40847ACC00000000#64 := by decide

/-- R62: BIN[3] keeps the low byte. -/
theorem test_write_bin3 :
    (after (idleWith [.write 0x0A4 0xFFFFFF80#32])).map (fun t => (t.bin[3], readReg t (regAt 0x0A4))) =
      some (0x80#8, 0x00000080#32) := by decide

/-- R22: 0b11 keeps POLICY, 0b10 sets it, bits 31:2 are ignored. -/
theorem test_write_policy :
    (after (idleWith [.write 0x000 0xFFFFFFFE#32])).map (fun t => t.policy) = some .reject ∧
    (after { idleWith [.write 0x000 0x00000003#32] with policy := .clamp }).map (fun t => t.policy) = some .clamp := by
  decide

/-- R176: a write to CTRL while a command is pending is dropped and sets S_HAZ. -/
theorem test_write_while_busy :
    (after (busyWith [.write 0x000 1#32] 3#32)).map (fun t => (t.policy, t.status.toWord)) =
      some (.wrap, 0x00201F01#32) := by decide

/-- R177: FIN reads exactly while a command is pending, and so does STATUS. -/
theorem test_read_while_busy :
    (after { busyWith [.read 0x084] 3#32 with fin := State.reset.fin.set 1 0x40500000#32 }).map (fun t => t.reads) =
      some [0x40500000#32] ∧
    (after (busyWith [.read 0x004] 3#32)).map (fun t => t.reads) = some [0x00001F01#32] := by decide

/-! ## Witnesses: the hypotheses of the statements can be met -/

/-- FENC pending, the Engine to move. -/
def fencPending : State := pendingIn State.reset 0x03

theorem witness_LegalityAndOperandDecode :
    decode 0x000000E1#32 = .ok (qencOf .w4 .s1M .f32) ∧ decode 0x00000002#32 = .ok (qdecOf .w2 .s100 .f64) := by decide

theorem witness_StepRunsPendingCommand :
    (fencPending.status.busy = true ∧ fencPending.engineNext [] ∧ decode fencPending.pend = .ok .fenc ∧
      ∃ t, exec .fenc { fencPending with turns := [] } = .next t) ∧
    ((busyWith [] 0#32).status.busy = true ∧ (busyWith [] 0#32).engineNext [] ∧
      decode (busyWith [] 0#32).pend = .ok .nop ∧ ∃ t, exec .nop { busyWith [] 0#32 with turns := [] } = .next t) :=
  ⟨⟨rfl, Or.inl rfl, by decide, _, rfl⟩, ⟨rfl, Or.inr ⟨rfl, rfl⟩, by decide, _, rfl⟩⟩

theorem witness_FetchWordRunsNext :
    32 ≤ 32 ∧ decodeTableWord 32 4 = some .fdec ∧ ∃ t, exec .fdec { State.reset with
      pend := BitVec.ofNat 32 (4 % 2 ^ 32)
      status := { State.reset.status with busy := true, done := false, err := false, errcode := .none, efield := 0x1F#5 } }
        = .next t :=
  ⟨Nat.le_refl _, by decide, _, rfl⟩

theorem witness_IllegalWordReportsIll :
    (busyWith [.engine] 0x5#32).status.busy = true ∧ (busyWith [.engine] 0x5#32).engineNext [] ∧
    Legal (busyWith [.engine] 0x5#32).pend = false := ⟨rfl, Or.inl rfl, by decide⟩

theorem witness_EngineStepAlwaysCompletes : fencPending.status.busy = true ∧ fencPending.engineNext [] :=
  ⟨rfl, Or.inl rfl⟩

theorem witness_IdleEngineTurnPasses :
    (idleWith [.engine]).status.busy = false ∧ (idleWith [.engine]).engineNext [] ∧
    (idleWith []).status.busy = false ∧ (idleWith []).engineNext [] := ⟨rfl, Or.inl rfl, rfl, Or.inr ⟨rfl, rfl⟩⟩

theorem witness_ResetInputSteps :
    (idleWith [.assertReset]).turns = .assertReset :: [] ∧ (idleWith [.releaseReset]).turns = .releaseReset :: [] :=
  ⟨rfl, rfl⟩

/-- A pending FENC meets the invariant: the frame is empty and nothing is reported. -/
theorem fencPending_inv : fencPending.Inv where
  frameWf := by decide
  errCode := by decide
  errField := Or.inl rfl
  pending := fun _ => ⟨rfl, rfl, rfl⟩
  inReset := by decide

theorem witness_EveryStepKeepsInvariant : fencPending.Inv ∧ ∃ t, step fencPending = .next t :=
  ⟨fencPending_inv, _, rfl⟩

theorem witness_SafeRunsNeverStop :
    (idleWith [.write 0x008 3#32, .read 0x100, .engine, .assertReset, .releaseReset, .read 0x1FC]).safe = true := by decide

theorem witness_PendingCommandCompletes :
    (busyWith [.write 0x008 0#32, .read 0x004, .engine] 3#32).status.busy = true ∧
    (busyWith [.write 0x008 0#32, .read 0x004, .engine] 3#32).resetLine = false ∧
    (∀ a ∈ [Access.write 0x008 .word 0#32, .read 0x004 .word], a.refusal = none) ∧
    (busyWith [.write 0x008 0#32, .read 0x004, .engine] 3#32).turns =
      [Access.write 0x008 .word 0#32, .read 0x004 .word].map Turn.host ++ [.engine] := ⟨rfl, rfl, by decide, rfl⟩

theorem witness_CommandIssue :
    ((idleWith [.write 0x008 3#32]).resetLine = false ∧
      (idleWith [.write 0x008 3#32]).turns = Turn.write 0x008 3#32 :: [] ∧
      (idleWith [.write 0x008 3#32]).status.busy = false) ∧
    ((busyWith [.write 0x008 3#32] 4#32).resetLine = false ∧
      (busyWith [.write 0x008 3#32] 4#32).turns = Turn.write 0x008 3#32 :: [] ∧
      (busyWith [.write 0x008 3#32] 4#32).status.busy = true) := ⟨⟨rfl, rfl, rfl⟩, rfl, rfl, rfl⟩

theorem witness_BusyWritesAreDropped :
    (busyWith [.write 0x1FC 1#32] 4#32).resetLine = false ∧ (busyWith [.write 0x1FC 1#32] 4#32).status.busy = true ∧
    windowOffset 0x1FC ∧ (busyWith [.write 0x1FC 1#32] 4#32).turns = Turn.write 0x1FC 1#32 :: [] :=
  ⟨rfl, rfl, by decide, rfl⟩

theorem witness_StatusWriteOneToClear :
    (idleWith [.write 0x004 0xFFFFFFFF#32]).resetLine = false ∧
    (idleWith [.write 0x004 0xFFFFFFFF#32]).status.busy = false ∧
    (idleWith [.write 0x004 0xFFFFFFFF#32]).turns = Turn.write 0x004 0xFFFFFFFF#32 :: [] := ⟨rfl, rfl, rfl⟩

theorem witness_PolicyWriteAnyReadLegal :
    (idleWith [.write 0x000 3#32]).resetLine = false ∧ (idleWith [.write 0x000 3#32]).status.busy = false ∧
    (idleWith [.write 0x000 3#32]).turns = Turn.write 0x000 3#32 :: [] := ⟨rfl, rfl, rfl⟩

/-- A word for each value of bits 1:0, the other bits not 0, and a state for each policy. -/
theorem witness_PolicyWriteAnyReadLegal_clauses :
    (0xFFFFFFFC#32).extractLsb' 0 2 = 0b00#2 ∧ (0xFFFFFFFD#32).extractLsb' 0 2 = 0b01#2 ∧
    (0xFFFFFFFE#32).extractLsb' 0 2 = 0b10#2 ∧ (0xFFFFFFFF#32).extractLsb' 0 2 = 0b11#2 ∧
    State.reset.policy = .wrap ∧ ({ State.reset with policy := .clamp } : State).policy = .clamp ∧
    ({ State.reset with policy := .reject } : State).policy = .reject := by decide

theorem witness_ReadOnlyWritesHaveNoEffect :
    ((idleWith [.write 0x1A8 1#32]).resetLine = false ∧ (idleWith [.write 0x1A8 1#32]).status.busy = false ∧
      0x1A8 % 4 = 0 ∧ (0x140 ≤ 0x1A8 ∧ 0x1A8 ≤ 0x1A8) ∧
      (idleWith [.write 0x1A8 1#32]).turns = Turn.write 0x1A8 1#32 :: []) ∧
    ((idleWith [.write 0x004 0xFFFFFFFF#32]).status.busy = false ∧
      (idleWith [.write 0x004 0xFFFFFFFF#32]).turns = Turn.write 0x004 0xFFFFFFFF#32 :: [] ∧
      ∃ t, step (idleWith [.write 0x004 0xFFFFFFFF#32]) = .next t) :=
  ⟨⟨rfl, rfl, by decide, by decide, rfl⟩, rfl, rfl, _, rfl⟩

/-- The first clause of the same at the ends of its ranges. -/
theorem witness_ReadOnlyWritesHaveNoEffect_bounds : ∀ off ∈ [0x01C, 0x020, 0x140, 0x1A8],
    off % 4 = 0 ∧ (off = 0x01C ∨ off = 0x020 ∨ (0x140 ≤ off ∧ off ≤ 0x1A8)) := by decide

theorem witness_ReservedOffsetsReadZero :
    ((idleWith [.read 0x024]).resetLine = false ∧ 0x024 % 4 = 0 ∧ (0x024 ≤ 0x024 ∧ 0x024 ≤ 0x03C) ∧
      (idleWith [.read 0x024]).turns = Turn.read 0x024 :: []) ∧
    ((idleWith [.write 0x1FC 1#32]).resetLine = false ∧ 0x1FC % 4 = 0 ∧ (0x1AC ≤ 0x1FC ∧ 0x1FC ≤ 0x1FC) ∧
      (idleWith [.write 0x1FC 1#32]).turns = Turn.write 0x1FC 1#32 :: [] ∧
      (idleWith [.write 0x1FC 1#32]).status.busy = false) :=
  ⟨⟨rfl, by decide, by decide, rfl⟩, rfl, by decide, by decide, rfl, rfl⟩

/-- The ends of each reserved range. -/
theorem witness_ReservedOffsetsReadZero_bounds : ∀ off ∈ [0x024, 0x03C, 0x0AC, 0x0FC, 0x12C, 0x13C, 0x1AC, 0x1FC],
    off % 4 = 0 ∧ ((0x024 ≤ off ∧ off ≤ 0x03C) ∨ (0x0AC ≤ off ∧ off ≤ 0x0FC) ∨ (0x12C ≤ off ∧ off ≤ 0x13C) ∨
      (0x1AC ≤ off ∧ off ≤ 0x1FC)) := by decide

theorem witness_HostReadReturns :
    ((busyWith [.read 0x1A8] 4#32).resetLine = false ∧ windowOffset 0x1A8 ∧
      (busyWith [.read 0x1A8] 4#32).turns = Turn.read 0x1A8 :: [] ∧ (busyWith [.read 0x1A8] 4#32).status.busy = true) ∧
    ((busyWith [.read 0x1AC] 4#32).resetLine = false ∧ windowOffset 0x1AC ∧
      (busyWith [.read 0x1AC] 4#32).turns = Turn.read 0x1AC :: [] ∧
      ¬ (0x1AC = 0x00C ∨ (0x018 ≤ 0x1AC ∧ 0x1AC ≤ 0x020) ∨ (0x100 ≤ 0x1AC ∧ 0x1AC ≤ 0x128) ∨
          (0x140 ≤ 0x1AC ∧ 0x1AC ≤ 0x1A8))) :=
  ⟨⟨rfl, by decide, rfl, rfl⟩, rfl, by decide, rfl, by decide⟩

/-- The ends of each range of the free reads. -/
theorem witness_HostReadReturns_bounds : ∀ off ∈ [0x00C, 0x018, 0x020, 0x100, 0x128, 0x140, 0x1A8],
    windowOffset off ∧ (off = 0x00C ∨ (0x018 ≤ off ∧ off ≤ 0x020) ∨ (0x100 ≤ off ∧ off ≤ 0x128) ∨
      (0x140 ≤ off ∧ off ≤ 0x1A8)) := by decide

theorem witness_CommandRegisterReadsZero :
    (busyWith [.read 0x008] 4#32).resetLine = false ∧ (busyWith [.read 0x008] 4#32).turns = Turn.read 0x008 :: [] :=
  ⟨rfl, rfl⟩

theorem witness_FrameWindowByteOrder :
    10 ≤ 10 ∧ (idleWith [.write 0x128 1#32]).resetLine = false ∧ (idleWith [.write 0x128 1#32]).status.busy = false ∧
    (idleWith [.write 0x128 1#32]).turns = Turn.write (0x100 + 4 * 10) 1#32 :: [] := ⟨Nat.le_refl _, rfl, rfl, rfl⟩

/-- The last whole word, its last byte, and the last byte of the frame. -/
theorem witness_FrameWindowByteOrder_bounds :
    9 ≤ 9 ∧ (3 ≤ 3 ∧ 4 * 9 + 3 < 42) ∧ (1 ≤ 3 ∧ 4 * 10 + 1 < 42) ∧ 39 < 4 * 10 := by decide

theorem witness_SplitRegisterHalves :
    (idleWith [.write 0x014 2#32, .write 0x010 1#32]).resetLine = false ∧
    (idleWith [.write 0x014 2#32, .write 0x010 1#32]).status.busy = false ∧
    (idleWith [.write 0x014 2#32, .write 0x010 1#32]).turns =
      Turn.write 0x014 ((0x0000000200000001#64).extractLsb' 32 32) ::
        Turn.write 0x010 ((0x0000000200000001#64).extractLsb' 0 32) :: [] ∧
    (idleWith [.write 0x078 1#32, .write 0x07C 2#32]).turns =
      Turn.write (0x040 + 8 * (7 : Fin 8)) ((0x0000000200000001#64).extractLsb' 0 32) ::
        Turn.write (0x044 + 8 * (7 : Fin 8)) ((0x0000000200000001#64).extractLsb' 32 32) :: [] :=
  ⟨rfl, rfl, by decide, by decide⟩

theorem witness_HostWriteTouchesOneWord :
    (idleWith [.write 0x128 1#32]).status.busy = false ∧ windowOffset 0x128 ∧ 0x128 ≠ 0x008 ∧
    (idleWith [.write 0x128 1#32]).turns = Turn.write 0x128 1#32 :: [] ∧
    (∃ t, step (idleWith [.write 0x128 1#32]) = .next t) ∧ windowOffset 0x124 ∧ 0x124 ≠ 0x128 :=
  ⟨rfl, by decide, by decide, rfl, ⟨_, rfl⟩, by decide, by decide⟩

/-- Its second clause, the last FIN, BIN and DIN registers. -/
theorem witness_HostWriteTouchesOneWord_map : ∀ off ∈ [0x00C, 0x010, 0x014, 0x018, 0x078, 0x07C, 0x094, 0x0A4, 0x0A8],
    (idleWith [.write off 1#32]).resetLine = false ∧ (idleWith [.write off 1#32]).status.busy = false ∧
    (idleWith [.write off 1#32]).turns = Turn.write off 1#32 :: [] := fun _ _ => ⟨rfl, rfl, rfl⟩

theorem witness_HostWriteTouchesOneWord_offsets :
    0x078 = 0x040 + 8 * (7 : Fin 8).val ∧ 0x07C = 0x044 + 8 * (7 : Fin 8).val ∧ 0x094 = 0x080 + 4 * (5 : Fin 6).val ∧
    0x0A4 = 0x098 + 4 * (3 : Fin 4).val := by decide

/-- The ends of the ranges of its read-back clauses: every bit, and the low byte. -/
theorem witness_HostWriteTouchesOneWord_bounds :
    (∀ off ∈ [0x010, 0x014, 0x018, 0x040, 0x094, 0x0A8, 0x100, 0x124], windowOffset off ∧ off ≠ 0x008 ∧
      (off = 0x010 ∨ off = 0x014 ∨ off = 0x018 ∨ (0x040 ≤ off ∧ off < 0x098) ∨ off = 0x0A8 ∨
        (0x100 ≤ off ∧ off < 0x128))) ∧
    (∀ off ∈ [0x00C, 0x098, 0x0A4], windowOffset off ∧ off ≠ 0x008 ∧
      (off = 0x00C ∨ (0x098 ≤ off ∧ off < 0x0A8))) := by decide

theorem witness_MalformedAccessesRefused :
    (idleWith [.host (.read 0x200 .word)]).resetLine = false ∧
    (idleWith [.host (.read 0x200 .word)]).turns = .host (.read 0x200 .word) :: [] ∧
    0x1FC < (Access.read 0x200 .word).off ∧
    ¬ ((Access.read 0x1FC .word).size ≠ .word ∨ (Access.read 0x1FC .word).off % 4 ≠ 0 ∨
      (Access.read 0x1FC .word).off < 0 ∨ 0x1FC < (Access.read 0x1FC .word).off) := ⟨rfl, rfl, by decide, by decide⟩

/-- Each way to be malformed. -/
theorem witness_MalformedAccessesRefused_bounds :
    (Access.read 0 .byte).size ≠ .word ∧ (Access.read 0x1FD .word).off % 4 ≠ 0 ∧ (Access.read (-4) .word).off < 0 ∧
    0x1FC < (Access.write 0x200 .word 0#32).off := by decide

theorem witness_AccessRefusedDuringReset :
    ((idleWith [.read 0x004]).withResetLine true).resetLine = true ∧
    ((idleWith [.read 0x004]).withResetLine true).turns = .host (.read 0x004 .word) :: [] := ⟨rfl, rfl⟩

theorem witness_RoundingIsNearestTiesToEven : 0 < 2 ∧ Fmt.f32.infMag ≤ Fmt.f32.infMag ∧ (0 : Nat) ≤ Fmt.f64.infMag := by
  decide

theorem witness_RoundingKeepsRepresentable : 1 ≤ Fmt.f64.infMag ∧ Fmt.f32.infMag ≤ Fmt.f32.infMag := by decide

/-- A pattern of each kind, at the ends of the exponent's range. -/
theorem witness_RoundingKeepsRepresentable_patterns :
    ((0xFFF0000000000001#64).extractLsb' 52 11).toNat = 2047 ∧ ((0xFFF0000000000001#64).extractLsb' 0 52).toNat ≠ 0 ∧
    ((0xFFF0000000000000#64).extractLsb' 52 11).toNat = 2047 ∧ ((0xFFF0000000000000#64).extractLsb' 0 52).toNat = 0 ∧
    ((0x800FFFFFFFFFFFFF#64).extractLsb' 52 11).toNat = 0 ∧
    0 < ((0x0010000000000000#64).extractLsb' 52 11).toNat ∧ ((0x7FEFFFFFFFFFFFFF#64).extractLsb' 52 11).toNat < 2047 ∧
    ((0xFF800001#32).extractLsb' 23 8).toNat = 255 ∧ ((0xFF800001#32).extractLsb' 0 23).toNat ≠ 0 ∧
    ((0xFF800000#32).extractLsb' 23 8).toNat = 255 ∧ ((0xFF800000#32).extractLsb' 0 23).toNat = 0 ∧
    ((0x807FFFFF#32).extractLsb' 23 8).toNat = 0 ∧
    0 < ((0x00800000#32).extractLsb' 23 8).toNat ∧ ((0x7F7FFFFF#32).extractLsb' 23 8).toNat < 255 ∧
    Fmt.f64.infMag - 1 < Fmt.f64.infMag := by decide

theorem witness_TruncationTowardZero : 2 ^ 149 - 1 < 2 ^ Fmt.f32.unitExp := by decide

theorem witness_ScaledProductIsOneMultiplication :
    Fmt.f32.roundMag (Fmt.f32.units 0x7F61B1E6 * Scale.s100.factor) 1 = Fmt.f32.infMag ∧
    Fmt.f32.roundMag (Fmt.f32.units 0x3F800000 * Scale.s100.factor) 1 ≠ Fmt.f32.infMag := by decide +kernel

/-- 1.0 × 100 is no event, -1.0 × 100 is SGN, 1e6 × 100 is OVF, and the non-finite products are INV. -/
theorem witness_QuantizeData :
    classify .f32 (Fmt.f32.scaledProduct (Fmt.f32.val 0x3F800000) 100) .w2 = (.none, 100) ∧
    classify .f32 (Fmt.f32.scaledProduct (Fmt.f32.val 0xBF800000) 100) .w2 = (.sgn, -100) ∧
    classify .f32 (Fmt.f32.scaledProduct (Fmt.f32.val 0x49742400) 100) .w3 = (.ovf, 100000000) ∧
    classify .f32 (Fmt.f32.scaledProduct (Fmt.f32.val 0x7FC00000) 100) .w2 = (.inv, 0) ∧
    classify .f32 (Fmt.f32.scaledProduct (Fmt.f32.val 0x7F800000) 100) .w2 = (.inv, 0) ∧
    classify .f32 (Fmt.f32.scaledProduct (Fmt.f32.val 0xFF800000) 100) .w4 = (.inv, 0) := by decide +kernel

theorem witness_ByteGroupIsBigEndian : 3 < Width.w4.bytes ∧ 1 < Width.w2.bytes := by decide

theorem witness_DequantizeAccumulator : Width.w3 ≠ .w4 ∧ 0x80 ≤ 0x80000000 % 2 ^ 32 / 2 ^ 24 := by decide

theorem witness_DequantizeFiniteAndSigned : Width.w2 ≠ .w4 ∧ accumulator 0x00010000 .w2 = 0 := by decide

theorem witness_QuantizeDequantizeRoundTrip :
    classify .f32 (Fmt.f32.scaledProduct (Fmt.f32.val 0x3F800000) Scale.s100.factor) .w2 = (.none, 100) := by
  decide +kernel

theorem witness_SignDefectKept :
    (Width.w2 ≠ .w4 ∧ (-65537 : Int) < 0) ∧ (-(2 : Int) ^ (8 * Width.w2.bytes) < -65535 ∧ (-65535 : Int) < 0) ∧
    ((-2147483648 : Int) ≤ -2147483648 ∧ (-2147483648 : Int) ≤ 2147483647) := by decide

theorem witness_QencResult :
    quantize (Fmt.f64.val State.reset.qin.toNat) .f64 .w2 .s100 State.reset.policy = (.none, some 0) := by decide

theorem witness_OperandBitsIgnored :
    ((0xFFFFFFFF00000000#64).extractLsb' 0 32 = State.reset.qin.extractLsb' 0 32 ∧
      ∃ t, exec (qencOf .w2 .s100 .f32) State.reset = .next t) ∧
    ((0xFFFF0000#32).toNat % 2 ^ (8 * Width.w2.bytes) = State.reset.qb.toNat % 2 ^ (8 * Width.w2.bytes) ∧
      ∃ t, exec (qdecOf .w2 .s100 .f64) State.reset = .next t) :=
  ⟨⟨by decide, _, rfl⟩, by decide, _, rfl⟩

theorem witness_QdecResult_f32 : Fmt.f32 = .f32 := rfl

/-- No field of the reset state has an event, and WRAP may write whatever the fields hold. -/
theorem witness_FencWritesWholeFrame :
    State.reset.fencWrites ∧ State.reset.policy = .wrap ∧
    ({ State.reset with policy := .reject } : State).fencWrites := by
  refine ⟨Or.inl (by decide), rfl, Or.inr ?_⟩
  decide +kernel

/-- CIN's neighbour F5 (index 13) is NaN. -/
def lastBad (pol : Policy) : State := { State.reset with policy := pol, fin := State.reset.fin.set 5 0x7FC00000#32 }

theorem witness_FencRejectWritesNothing :
    (lastBad .reject).policy = .reject ∧ ∃ f ∈ fieldTable, (fieldResult (lastBad .reject) f).1 ≠ .none :=
  ⟨rfl, ⟨.f 5, .quantized .w2 .s100 .f32, 32⟩, by decide, by decide +kernel⟩

/-- Field 13 alone has an event. -/
theorem witness_FencReportsLowestField :
    (lastBad .clamp).policy ≠ .wrap ∧ fieldTable[13]? = some ⟨.f 5, .quantized .w2 .s100 .f32, 32⟩ ∧
    (fieldResult (lastBad .clamp) ⟨.f 5, .quantized .w2 .s100 .f32, 32⟩).1 ≠ .none ∧
    (∀ (j : Nat) (f' : Field), j < 13 → fieldTable[j]? = some f' → (fieldResult (lastBad .clamp) f').1 = .none) := by
  refine ⟨by decide, by decide, by decide +kernel, ?_⟩
  have key : ∀ f ∈ fieldTable.take 13, (fieldResult (lastBad .clamp) f).1 = .none := by decide +kernel
  intro j f' hj hf
  refine key f' (List.mem_iff_getElem?.2 ⟨j, ?_⟩)
  rw [List.getElem?_take_of_lt hj, hf]

/-- The first field of the table. -/
theorem witness_FencReportsLowestField_first :
    ({ State.reset with policy := .reject, din := State.reset.din.set 0 0x7FF8000000000000#64 } : State).policy ≠ .wrap ∧
    fieldTable[0]? = some ⟨.d 0, .quantized .w2 .s100 .f64, 0⟩ ∧
    (fieldResult { State.reset with policy := .reject, din := State.reset.din.set 0 0x7FF8000000000000#64 }
      ⟨.d 0, .quantized .w2 .s100 .f64, 0⟩).1 ≠ .none := ⟨by decide, by decide, by decide +kernel⟩

theorem witness_FencFieldIsolation :
    (⟨.d 3, .quantized .w4 .s1M .f64, 8⟩ : Field) ∈ fieldTable ∧
    fe1.policy = ({ fe1 with din := fe1.din.set 3 0x4028B0FCB4F1E4B4#64 } : State).policy ∧
    (∀ f' ∈ fieldTable, f' ≠ ⟨.d 3, .quantized .w4 .s1M .f64, 8⟩ →
      f'.slot.input fe1 = f'.slot.input { fe1 with din := fe1.din.set 3 0x4028B0FCB4F1E4B4#64 }) ∧
    fe1.fencWrites ∧ ({ fe1 with din := fe1.din.set 3 0x4028B0FCB4F1E4B4#64 } : State).fencWrites :=
  ⟨by decide, rfl, by decide +kernel, Or.inl (by decide), Or.inl (by decide)⟩

/-- FE-1's D7 (655.35) and F5 (1.0) have no event. -/
theorem witness_FencFdecRoundTrip :
    fe1.fencWrites ∧
    (⟨.d 7, .quantized .w2 .s100 .f64, 20⟩ : Field) ∈ fieldTable ∧
    classify .f64 (Fmt.f64.scaledProduct (Fmt.f64.val fe1.din[7].toNat) Scale.s100.factor) .w2 = (.none, 65535) ∧
    (⟨.f 5, .quantized .w2 .s100 .f32, 32⟩ : Field) ∈ fieldTable ∧
    classify .f32 (Fmt.f32.scaledProduct (Fmt.f32.val fe1.fin[5].toNat) Scale.s100.factor) .w2 = (.none, 100) :=
  ⟨Or.inl (by decide), by decide, by decide +kernel, by decide, by decide +kernel⟩

theorem witness_FdecResult :
    ({ State.reset with flen := 42#8 } : State).flen = 42#8 ∧ State.reset.flen ≠ 42#8 := by decide

theorem witness_CommandFrames : ∃ t, exec .fenc State.reset = .next t := ⟨_, rfl⟩

theorem witness_CommandErrorRepertoire :
    fencPending.Inv ∧ fencPending.status.busy = true ∧ fencPending.engineNext [] ∧ (∃ t, step fencPending = .next t) ∧
    decode fencPending.pend = .ok .fenc := ⟨fencPending_inv, rfl, Or.inl rfl, ⟨_, rfl⟩, by decide⟩

/-- Its other clauses: NOP, QDEC, QENC, FDEC, and an illegal word. -/
theorem witness_CommandErrorRepertoire_clauses :
    decode 0x00#32 = .ok .nop ∧ decode 0x02#32 = .ok (qdecOf .w2 .s100 .f64) ∧
    decode 0x01#32 = .ok (qencOf .w2 .s100 .f64) ∧ decode 0x04#32 = .ok .fdec ∧ Legal 0x33#32 = false := by decide

/-- FDEC pending in the reset state, whose FLEN is 0. -/
def shortFrame : State := pendingIn State.reset 0x04

theorem shortFrame_inv : shortFrame.Inv where
  frameWf := by decide
  errCode := by decide
  errField := Or.inl rfl
  pending := fun _ => ⟨rfl, rfl, rfl⟩
  inReset := by decide

theorem witness_ErrorsArePrecise :
    shortFrame.Inv ∧ shortFrame.status.busy = true ∧ shortFrame.engineNext [] ∧
    ∃ t, step shortFrame = .next t ∧ t.status.err = true ∧ t.status.errcode = .flen :=
  ⟨shortFrame_inv, rfl, Or.inl rfl, _, rfl, by decide, by decide⟩

/-- S_HAZ is set and the Host clears it. -/
def clearHaz : State := { idleWith [.write 0x004 0x00200000#32] with status := State.reset.status.hazard }

theorem witness_StickyBitsClearedOnlyByHost :
    16 ≤ 21 ∧ 21 ≤ 21 ∧ clearHaz.status.toWord.getLsbD 21 = true ∧
    ∃ t, step clearHaz = .next t ∧ t.status.toWord.getLsbD 21 = false :=
  ⟨by decide, Nat.le_refl _, by decide, _, rfl, by decide⟩

theorem witness_BusyAndDoneTransitions : ∃ t, step fencPending = .next t := ⟨_, rfl⟩

theorem witness_LastCommandFields :
    ((idleWith [.write 0x008 3#32]).turns = .host (.write 0x008 .word 3#32) :: [] ∧
      ∃ t, step (idleWith [.write 0x008 3#32]) = .next t) ∧
    (fencPending.Inv ∧ fencPending.status.busy = true ∧ fencPending.engineNext [] ∧
      ∃ t, step fencPending = .next t ∧ t.status.err = false) :=
  ⟨⟨rfl, _, rfl⟩, fencPending_inv, rfl, Or.inl rfl, _, rfl, by decide +kernel⟩

theorem witness_HostCannotDisturbPendingCommand :
    (busyWith [.write 0x010 1#32, .engine] 1#32).status.busy = true ∧
    (busyWith [.write 0x010 1#32, .engine] 1#32).turns = .host (.write 0x010 .word 1#32) :: .engine :: [] ∧
    (∃ t, step (busyWith [.write 0x010 1#32, .engine] 1#32) = .next t) ∧
    ∃ u, step { busyWith [.write 0x010 1#32, .engine] 1#32 with turns := .engine :: [] } = .next u :=
  ⟨rfl, rfl, ⟨_, rfl⟩, _, rfl⟩

end Sys2Proof.Tests
end

section
/-! SUPPORT. The statements about the registers of BTQC (10_state.md): CTRL.POLICY, what sets and clears BUSY and DONE,
and the reset values. -/

namespace Sys2Proof.Machine

/-! ## CTRL -/

@[simp] theorem Policy.write_00 (p : Policy) : p.write 0b00#2 = .wrap := rfl
@[simp] theorem Policy.write_01 (p : Policy) : p.write 0b01#2 = .clamp := rfl
@[simp] theorem Policy.write_10 (p : Policy) : p.write 0b10#2 = .reject := rfl
@[simp] theorem Policy.write_11 (p : Policy) : p.write 0b11#2 = p := rfl

/-- CTRL reads as the number of the policy it holds (R21). -/
theorem readReg_ctrl (s : State) : readReg s .ctrl =
    match s.policy with
    | .wrap => 0#32
    | .clamp => 1#32
    | .reject => 2#32 := by
  cases h : s.policy <;> simp [readReg, h, Policy.bits]

/-- Settles O19: the accepted write is `Policy.write` of bits 1:0, and CTRL has one value for each policy. -/
theorem policyWriteAnyReadLegal : Obligations.PolicyWriteAnyReadLegal := by
  refine ⟨fun s d ts hr hb hts => ?_, fun s => ?_, fun s => ?_⟩
  · exact ⟨s.policy.write (d.extractLsb' 0 2), step_writeReg .ctrl hr hb hts rfl,
      fun hd => by rw [hd, Policy.write_00], fun hd => by rw [hd, Policy.write_01],
      fun hd => by rw [hd, Policy.write_10], fun hd => by rw [hd, Policy.write_11], Policy.write_bits _ _⟩
  · have hreg : regAt 0x000 = .ctrl := rfl
    rw [hreg, readReg_ctrl]
    exact ⟨fun hp => by rw [hp], fun hp => by rw [hp], fun hp => by rw [hp]⟩
  · rw [readReg_ctrl]
    cases s.policy with
    | wrap => exact Or.inl rfl
    | clamp => exact Or.inr (Or.inl rfl)
    | reject => exact Or.inr (Or.inr rfl)

/-! ## BUSY and DONE -/

/-- The Host's next move is a write of `c` to CMD that will be accepted (R56). -/
abbrev State.issuesNext (s : State) : Prop :=
  ∃ c ts, s.status.busy = false ∧ s.turns = Turn.write 0x008 c :: ts

/-- A write to CMD that finds BUSY = 0 issues its word (R56). -/
theorem step_issue {s t : State} {c : Word} {ts : List Turn} (hb : s.status.busy = false)
    (hts : s.turns = Turn.write 0x008 c :: ts) (h : step s = .next t) : t = (s.withTurns ts).issue c := by
  obtain ⟨-, hr, -⟩ := step_write_inv hts h
  rw [step_writeReg .cmd hr hb hts rfl] at h
  exact (Host.Outcome.next.inj h).symm

/-- A Host access other than a write to CMD that finds BUSY = 0 keeps BUSY and DONE (R24, R25). -/
theorem effect_keeps_busy_done {a : Access} (ha : a.refusal = none) (s : State)
    (hc : s.status.busy = false → ∀ d, a ≠ .write ((0x008 : Nat) : Int) .word d) :
    (a.effect s).status.busy = s.status.busy ∧ (a.effect s).status.done = s.status.done := by
  rcases effect_status ha s with h | ⟨-, h⟩ | ⟨-, d, -, h⟩ | ⟨hb, d, hd, -⟩
  · rw [h]; exact ⟨rfl, rfl⟩
  · rw [h]; exact ⟨rfl, rfl⟩
  · rw [h]; exact ⟨rfl, rfl⟩
  · exact absurd hd (hc hb d)

/-- Settles O58, by the cases of a step: an issue is the one Host access that changes BUSY or DONE. -/
theorem busyAndDoneTransitions : Obligations.BusyAndDoneTransitions := by
  intro s t h
  by_cases hc : s.issuesNext
  · obtain ⟨c, ts, hb, hts⟩ := hc
    rw [step_issue hb hts h]
    exact Or.inl ⟨⟨c, ts, hb, hts⟩, rfl, rfl, ts, hts⟩
  · rcases step_cases h with ⟨ts, u, he, hb, -, rfl⟩ | ⟨ts, he, hb, rfl⟩ | ⟨a, ts, hts, -, ha, rfl⟩ | ⟨ts, hts, rfl⟩ |
      ⟨ts, hts, rfl⟩
    · exact Or.inr (Or.inl ⟨⟨hb, ts, he⟩, rfl, rfl⟩)
    · have hreset : ¬ ∃ ts, s.turns = .assertReset :: ts := by
        rcases he with hts | ⟨hts, -⟩ <;> simp [hts]
      exact Or.inr (Or.inr (Or.inr ⟨hc, by simp [hb], hreset, rfl, rfl⟩))
    · have hkeep := effect_keeps_busy_done ha (s.withTurns ts) (fun hb d hd => hc ⟨d, ts, hb, by rw [hts, hd]; rfl⟩)
      exact Or.inr (Or.inr (Or.inr ⟨hc, by simp [hts], by simp [hts], hkeep⟩))
    · exact Or.inr (Or.inr (Or.inl ⟨⟨ts, hts⟩, rfl, rfl⟩))
    · exact Or.inr (Or.inr (Or.inr ⟨hc, by simp [hts], by simp [hts], rfl, rfl⟩))

/-! ## Reset -/

/-- STATUS reads 0x00001F00 after reset (R41). -/
theorem Status.reset_toWord : Status.reset.toWord = 0x00001F00#32 := by decide

/-- Every byte of FRAME is 0x00 after reset (R41). -/
@[simp] theorem State.reset_frame_read (a : Nat) : State.reset.frame.read a = 0x00#8 := Memory.read_nil a

/-- Settles O9: `State.reset` gives each register its value, a bank of registers the same one at every index. -/
theorem resetValues : Obligations.ResetValues := by
  have bank {α : Type} {n : Nat} (v : α) (i : Fin n) : (Vector.replicate n v)[i] = v := Vector.getElem_replicate i.isLt
  exact ⟨readReg_ctrl State.reset, rfl, Status.reset_toWord, rfl, rfl, rfl, rfl, rfl,
    fun a _ => State.reset_frame_read a, fun i => ⟨bank _ i, bank _ i⟩, fun j => ⟨bank _ j, bank _ j⟩,
    fun j => ⟨bank _ j, bank _ j⟩, rfl, rfl⟩

end Sys2Proof.Machine
end

section
/-! SUPPORT. The statements about the Host's port (20_memory.md): accesses that have no meaning, writes that are accepted,
dropped or ignored, STATUS, the frame window and the halves of 64-bit registers. -/

namespace Sys2Proof.Machine

/-! ## Accesses with and without a meaning (R51, R52) -/

/-- Each check of an access refuses one way of being malformed, and nothing else does. -/
theorem refusal_eq_none_iff (a : Access) :
    a.refusal = none ↔ ¬ (a.size ≠ .word ∨ a.off % 4 ≠ 0 ∨ a.off < 0 ∨ 0x1FC < a.off) := by
  unfold Access.refusal
  split_ifs with hsize halign hwindow
  · exact iff_of_false not_false (not_not.2 (Or.inl hsize))
  · exact iff_of_false not_false (not_not.2 (Or.inr (Or.inl halign)))
  · exact iff_of_false not_false (not_not.2 (Or.inr (Or.inr hwindow)))
  · exact iff_of_true rfl (fun hbad => hbad.elim hsize (fun hbad => hbad.elim halign hwindow))

/-- A listed Host access that has no meaning is refused, for the reason its check gives. -/
theorem step_host_refused {s : State} {a : Access} {ts : List Turn} {r : Refusal} (h : s.turns = .host a :: ts)
    (hr : s.resetLine = false) (ha : a.refusal = some r) : step s = .refused r := by
  rw [step_turn h]
  simp [takeTurn, hostStep, hr, ha]

/-- Settles O27: the checks of `Access.refusal` are R52's three conditions, and `hostStep` does nothing but ask it. -/
theorem malformedAccessesRefused : Obligations.MalformedAccessesRefused := by
  intro s a ts hr hts
  refine ⟨fun hbad => ?_, fun hgood => ?_⟩
  · have hne : a.refusal ≠ none := fun hnone => (refusal_eq_none_iff a).1 hnone hbad
    obtain ⟨r, ha⟩ := Option.ne_none_iff_exists'.1 hne
    exact ⟨r, step_host_refused hts hr ha⟩
  · exact ⟨_, step_host hts hr ((refusal_eq_none_iff a).2 hgood)⟩

/-! ## Issuing a command (R56, R176) -/

/-- A listed HostWrite of the window that finds a command pending is dropped (R176). -/
theorem step_write_busy {s : State} {off : Nat} {d : Word} {ts : List Turn} (hr : s.resetLine = false)
    (hb : s.status.busy = true) (hw : windowOffset off) (hts : s.turns = Turn.write off d :: ts) :
    step s = .next (s.withTurns ts).hazard := by
  rw [step_write hts hr hw]
  simp [hostWrite, hb]

/-- Settles O15: accepted, the write is `State.issue`; dropped, it is `State.hazard`. -/
theorem commandIssue : Obligations.CommandIssue :=
  fun _ _ _ hr hts => ⟨fun hb => step_writeReg .cmd hr hb hts rfl, fun hb => step_write_busy hr hb (by decide) hts⟩

/-! ## STATUS (R55, R57) -/

/-- Settles O17: the accepted write is `Status.clear`, which masks the word the Host reads. -/
theorem statusWriteOneToClear : Obligations.StatusWriteOneToClear :=
  fun s d _ hr hb hts => ⟨s.status.clear d, step_writeReg .status hr hb hts rfl, Status.clear_toWord s.status d⟩

/-- No bit of STATUS outside the sticky ones is changed by a write to it. -/
theorem Status.clear_getLsbD_outside (st : Status) (d : Word) {n : Nat} (hn : n < 16 ∨ 21 < n) :
    (st.clear d).toWord.getLsbD n = st.toWord.getLsbD n := by
  have hsticky : n ≠ 16 ∧ n ≠ 17 ∧ n ≠ 18 ∧ n ≠ 19 ∧ n ≠ 20 ∧ n ≠ 21 := by omega
  simp [Status.toWord_getLsbD, hsticky]

/-! ## Registers that ignore writes (R54, R55) -/

/-- The read-only registers of R53's table, but for STATUS, and the reserved words. -/
def Reg.ignoresWrites : Reg → Bool
  | .qoutLo | .qoutHi | .doutLo _ | .doutHi _ | .fout _ | .bout _ | .cout | .reserved => true
  | _ => false

theorem writeReg_of_ignoresWrites {r : Reg} (h : r.ignoresWrites = true) (s : State) (d : Word) : writeReg s d r = s := by
  cases r
  case qoutLo | qoutHi | doutLo | doutHi | fout | bout | cout | reserved => rfl
  all_goals exact absurd h Bool.false_ne_true

/-- A listed HostWrite to a register that ignores writes, while no command is pending, only takes its turn. -/
theorem step_write_ignored {s : State} {off : Nat} {d : Word} {ts : List Turn} (hr : s.resetLine = false)
    (hb : s.status.busy = false) (hw : windowOffset off) (hi : (regAt off).ignoresWrites = true)
    (hts : s.turns = Turn.write off d :: ts) : step s = .next (s.withTurns ts) := by
  rw [step_write hts hr hw]
  simp [hostWrite, hb, writeReg_of_ignoresWrites hi]

/-- The read-only offsets of R53's table hold registers that ignore writes. -/
theorem regAt_readOnly {off : Nat} (h4 : off % 4 = 0) (hro : off = 0x01C ∨ off = 0x020 ∨ (0x140 ≤ off ∧ off ≤ 0x1A8)) :
    (regAt off).ignoresWrites = true := by
  have word : ∀ k : Fin 128, 4 * k.val = 0x01C ∨ 4 * k.val = 0x020 ∨ (0x140 ≤ 4 * k.val ∧ 4 * k.val ≤ 0x1A8) →
      (regAt (4 * k)).ignoresWrites = true := by decide
  obtain ⟨k, rfl⟩ : ∃ k, off = 4 * k := ⟨off / 4, by omega⟩
  exact word ⟨k, by omega⟩ hro

/-- Settles O20: the read-only offsets hold registers that ignore writes, and STATUS changes by `Status.clear`. -/
theorem readOnlyWritesHaveNoEffect : Obligations.ReadOnlyWritesHaveNoEffect := by
  refine ⟨fun s off d ts hr hb h4 hro hts => ?_, fun s t d ts n hb hts h hn => ?_⟩
  · exact step_write_ignored hr hb ⟨h4, by omega⟩ (regAt_readOnly h4 hro) hts
  · obtain ⟨-, hr, -⟩ := step_write_inv hts h
    rw [step_writeReg .status hr hb hts rfl] at h
    rw [← Host.Outcome.next.inj h]
    exact Status.clear_getLsbD_outside s.status d hn

/-! ## The frame window (R59) -/

/-- Byte k of a written FRAMEW word, counted from the most significant, where the frame has that byte. -/
theorem read_writeFramew_inside (fr : Memory) (m : Fin 11) (d : Word) {k : Nat} (hk : k ≤ 3) (hlen : 4 * m.val + k < 42) :
    (writeFramew fr m d).read (4 * m + k) = d.extractLsb' (24 - 8 * k) 8 := by
  rw [read_writeFramew]
  interval_cases k
  · exact if_pos rfl
  · rw [if_neg (by omega), if_pos rfl]
  · rw [if_neg (by omega), if_neg (by omega), if_neg (by omega), if_pos rfl]
  · rw [if_neg (by omega), if_neg (by omega), if_neg (by omega), if_neg (by omega), if_pos rfl]

/-- A write to FRAMEW[m] keeps every byte outside its word, and every one past the frame's end. -/
theorem read_writeFramew_outside (fr : Memory) (m : Fin 11) (d : Word) {a : Nat}
    (ha : a < 4 * m.val ∨ 4 * m.val + 3 < a ∨ 42 ≤ a) : (writeFramew fr m d).read a = fr.read a := by
  have hm := m.isLt
  rw [read_writeFramew, if_neg (by omega), if_neg (by omega)]
  by_cases hlast : m.val = 10
  · rw [if_pos hlast]
  · rw [if_neg hlast, if_neg (by omega), if_neg (by omega)]

/-- Settles O24: the window's offsets are those of `Reg.framew`, which reads and writes its bytes in order. -/
theorem frameWindowByteOrder : Obligations.FrameWindowByteOrder := by
  refine ⟨fun s m hm => ?_, fun s => rfl, fun s m d ts hm hr hb hts => ?_⟩
  · obtain ⟨r, rfl⟩ : ∃ r : Fin 11, m = r := ⟨⟨m, by omega⟩, rfl⟩
    have hreg : regAt (0x100 + 4 * r) = .framew r := regAt_offset (.framew r)
    rw [hreg]
    exact if_neg (by omega)
  · obtain ⟨r, rfl⟩ : ∃ r : Fin 11, m = r := ⟨⟨m, by omega⟩, rfl⟩
    exact ⟨writeFramew s.frame r d, step_writeReg (.framew r) hr hb hts rfl,
      fun k hk hlen => read_writeFramew_inside s.frame r d hk hlen,
      fun a ha => read_writeFramew_outside s.frame r d ha⟩

/-! ## Two writes one after the other -/

@[simp] theorem writeReg_resetLine (s : State) (d : Word) (r : Reg) : (writeReg s d r).resetLine = s.resetLine := by
  rw [writeReg_eq]

@[simp] theorem writeReg_turns (s : State) (d : Word) (r : Reg) : (writeReg s d r).turns = s.turns := by
  rw [writeReg_eq]

/-- An accepted write does not look at the moves to come. -/
theorem writeReg_withTurns (s : State) (ts : List Turn) (d : Word) (r : Reg) :
    (writeReg s d r).withTurns ts = writeReg (s.withTurns ts) d r := by
  cases r <;> rfl

/-- Only a write to CMD changes BUSY (R24). -/
theorem writeReg_busy (s : State) (d : Word) {r : Reg} (hc : r ≠ .cmd) :
    (writeReg s d r).status.busy = s.status.busy := by
  rw [writeReg_status]
  split
  · rfl
  · exact absurd rfl hc
  · rfl

/-- Two listed writes, the first not to CMD, are both accepted. -/
theorem step_writeReg_twice {s t : State} {off off' : Nat} {d d' : Word} {ts : List Turn} (r r' : Reg)
    (hr : s.resetLine = false) (hb : s.status.busy = false) (hc : r ≠ .cmd)
    (hts : s.turns = Turn.write off d :: Turn.write off' d' :: ts) (ho : off = r.offset) (ho' : off' = r'.offset)
    (ht : writeReg (writeReg (s.withTurns ts) d r) d' r' = t) : ∃ u, step s = .next u ∧ step u = .next t := by
  refine ⟨_, step_writeReg r hr hb hts ho, ?_⟩
  have hr' := (writeReg_resetLine (s.withTurns (Turn.write off' d' :: ts)) d r).trans hr
  have hb' := (writeReg_busy (s.withTurns (Turn.write off' d' :: ts)) d hc).trans hb
  rw [step_writeReg r' hr' hb' (writeReg_turns _ _ _) ho', writeReg_withTurns, ← ht]
  rfl

/-! ## The halves of QIN and DIN (R61) -/

theorem writeReg_qinLo_qinHi (s : State) (v : DWord) :
    writeReg (writeReg s (v.extractLsb' 0 32) .qinLo) (v.extractLsb' 32 32) .qinHi = { s with qin := v } := by
  simp only [writeReg, setHi_setLo]

theorem writeReg_qinHi_qinLo (s : State) (v : DWord) :
    writeReg (writeReg s (v.extractLsb' 32 32) .qinHi) (v.extractLsb' 0 32) .qinLo = { s with qin := v } := by
  simp only [writeReg, setLo_setHi]

theorem writeReg_dinLo_dinHi (s : State) (i : Fin 8) (v : DWord) :
    writeReg (writeReg s (v.extractLsb' 0 32) (.dinLo i)) (v.extractLsb' 32 32) (.dinHi i) =
      { s with din := s.din.set i v } := by
  simp only [writeReg, Fin.getElem_fin, Vector.getElem_set_self, Vector.set_set, setHi_setLo]

theorem writeReg_dinHi_dinLo (s : State) (i : Fin 8) (v : DWord) :
    writeReg (writeReg s (v.extractLsb' 32 32) (.dinHi i)) (v.extractLsb' 0 32) (.dinLo i) =
      { s with din := s.din.set i v } := by
  simp only [writeReg, Fin.getElem_fin, Vector.getElem_set_self, Vector.set_set, setLo_setHi]

/-- Settles O25: each half is read at its own offset, and a second half written joins the first. -/
theorem splitRegisterHalves : Obligations.SplitRegisterHalves := by
  refine ⟨fun s i => ?_, fun s v ts hr hb hts => ?_, fun s i v ts hr hb hts => ?_⟩
  · have half (r : Reg) : readReg s (regAt r.offset) = readReg s r := by rw [regAt_offset]
    exact ⟨half .qinLo, half .qinHi, half .qoutLo, half .qoutHi, half (.dinLo i), half (.dinHi i), half (.doutLo i),
      half (.doutHi i)⟩
  · rcases hts with hts | hts
    · exact step_writeReg_twice .qinLo .qinHi hr hb nofun hts rfl rfl (writeReg_qinLo_qinHi _ v)
    · exact step_writeReg_twice .qinHi .qinLo hr hb nofun hts rfl rfl (writeReg_qinHi_qinLo _ v)
  · rcases hts with hts | hts
    · exact step_writeReg_twice (.dinLo i) (.dinHi i) hr hb nofun hts rfl rfl (writeReg_dinLo_dinHi _ i v)
    · exact step_writeReg_twice (.dinHi i) (.dinLo i) hr hb nofun hts rfl rfl (writeReg_dinHi_dinLo _ i v)

end Sys2Proof.Machine
end

section
/-! SUPPORT. The statements about command words (30_encoding.md) that are settled from what `decode` can answer: which
words are legal, the operands they select, and the report of an illegal one. -/

namespace Sys2Proof.Machine

/-! ## What `decode` can answer (R70 to R76) -/

theorem widthOfSel_eq_none_iff (b : BitVec 2) : widthOfSel b = none ↔ b = 0b11#2 := by
  revert b; decide

theorem widthOfSel_isSome_iff (b : BitVec 2) : (∃ w, widthOfSel b = some w) ↔ b ≠ 0b11#2 := by
  rw [← Option.ne_none_iff_exists', Ne, widthOfSel_eq_none_iff]

theorem decodePlain_eq_ok_iff (c : Word) (i j : Instr) :
    decodePlain c j = .ok i ↔ c.extractLsb' 4 4 = 0#4 ∧ i = j := by
  unfold decodePlain
  split_ifs with hsel <;> simp [hsel, eq_comm]

theorem decodeScalar_eq_ok_iff (c : Word) (mk : Width → Scale → Fmt → Instr) (i : Instr) :
    decodeScalar c mk = .ok i ↔ ∃ w, widthOfSel (c.extractLsb' 4 2) = some w ∧
      i = mk w (scaleOfSel (c.extractLsb' 6 1)) (fmtOfSel (c.extractLsb' 7 1)) := by
  unfold decodeScalar
  cases widthOfSel (c.extractLsb' 4 2) <;> simp [eq_comm]

/-- The words that decode to a command, one case for each value of OP that R71 lists. -/
theorem decode_eq_ok_iff (c : Word) (i : Instr) : decode c = .ok i ↔ c.extractLsb' 8 24 = 0#24 ∧
    ((c.extractLsb' 0 4 = 0x0#4 ∧ decodePlain c .nop = .ok i) ∨
      (c.extractLsb' 0 4 = 0x1#4 ∧ decodeScalar c qencOf = .ok i) ∨
      (c.extractLsb' 0 4 = 0x2#4 ∧ decodeScalar c qdecOf = .ok i) ∨
      (c.extractLsb' 0 4 = 0x3#4 ∧ decodePlain c .fenc = .ok i) ∨
      (c.extractLsb' 0 4 = 0x4#4 ∧ decodePlain c .fdec = .ok i)) := by
  unfold decode
  split_ifs <;> simp_all

/-! ## Legal words (R76) -/

/-- `Legal` as R76 writes it, with its tests as propositions. -/
theorem legal_iff (c : Word) : Legal c = true ↔ c.extractLsb' 8 24 = 0#24 ∧
    (((c.extractLsb' 0 4 = 0x0#4 ∨ c.extractLsb' 0 4 = 0x3#4 ∨ c.extractLsb' 0 4 = 0x4#4) ∧
        c.extractLsb' 4 4 = 0#4) ∨
      ((c.extractLsb' 0 4 = 0x1#4 ∨ c.extractLsb' 0 4 = 0x2#4) ∧ c.extractLsb' 4 2 ≠ 0b11#2)) := by
  simp [Legal, or_assoc]

/-- A word decodes exactly when it is legal: both ask the same of OP and of the selectors it allows. -/
theorem exists_decode_iff_legal (c : Word) : (∃ i, decode c = .ok i) ↔ Legal c = true := by
  have plain (j : Instr) : (∃ i, decodePlain c j = .ok i) ↔ c.extractLsb' 4 4 = 0#4 := by
    simp [decodePlain_eq_ok_iff]
  have scalar (mk : Width → Scale → Fmt → Instr) :
      (∃ i, decodeScalar c mk = .ok i) ↔ c.extractLsb' 4 2 ≠ 0b11#2 := by
    simp [decodeScalar_eq_ok_iff, ← widthOfSel_isSome_iff]
  simp only [decode_eq_ok_iff, exists_and_left, exists_or, plain, scalar, legal_iff]
  tauto

/-- The 27 legal words as R76 lists them: NOP, FENC and FDEC, then QENC's twelve and QDEC's twelve. -/
def legalWords : List Nat :=
  [0x00, 0x03, 0x04,
    0x01, 0x11, 0x21, 0x41, 0x51, 0x61, 0x81, 0x91, 0xA1, 0xC1, 0xD1, 0xE1,
    0x02, 0x12, 0x22, 0x42, 0x52, 0x62, 0x82, 0x92, 0xA2, 0xC2, 0xD2, 0xE2]

theorem lt_of_mem_legalWords : ∀ n ∈ legalWords, n < 256 := by decide

/-- The bits above 7 of a legal word are 0 (R75). -/
theorem toNat_lt_of_legal {c : Word} (h : Legal c = true) : c.toNat < 256 := by
  have hhigh := congrArg BitVec.toNat ((legal_iff c).1 h).1
  simp only [BitVec.extractLsb'_toNat, Nat.shiftRight_eq_div_pow, BitVec.toNat_ofNat] at hhigh
  omega

/-- Among the words of one byte, read as two digits of 4 bits, the legal ones are those R76 lists. -/
theorem legal_digits_iff_mem : ∀ sel op : Fin 16,
    Legal (BitVec.ofNat 32 (16 * sel + op)) = true ↔ 16 * sel.val + op ∈ legalWords := by decide

theorem legal_iff_mem_legalWords (c : Word) : Legal c = true ↔ c.toNat ∈ legalWords := by
  have byte (hc : c.toNat < 256) : Legal c = true ↔ c.toNat ∈ legalWords := by
    have digits := legal_digits_iff_mem ⟨c.toNat / 16, by omega⟩ ⟨c.toNat % 16, by omega⟩
    simpa only [Nat.div_add_mod, BitVec.ofNat_toNat, BitVec.setWidth_eq] using digits
  exact ⟨fun h => (byte (toNat_lt_of_legal h)).1 h, fun h => (byte (lt_of_mem_legalWords _ h)).2 h⟩

/-! ## The operands of a word (R72 to R74) -/

/-- The width, scale and format of a QENC or QDEC. -/
def operandsOf : Instr → Option (Width × Scale × Fmt)
  | .qencW2 sc f | .qdecW2 sc f => some (.w2, sc, f)
  | .qencW3 sc f | .qdecW3 sc f => some (.w3, sc, f)
  | .qencW4 sc f | .qdecW4 sc f => some (.w4, sc, f)
  | .nop | .fenc | .fdec => none

@[simp] theorem operandsOf_qencOf (w : Width) (sc : Scale) (f : Fmt) : operandsOf (qencOf w sc f) = some (w, sc, f) := by
  cases w <;> rfl

@[simp] theorem operandsOf_qdecOf (w : Width) (sc : Scale) (f : Fmt) : operandsOf (qdecOf w sc f) = some (w, sc, f) := by
  cases w <;> rfl

/-- The operands of a decoded command are what WSEL, SSEL and FMT select. -/
theorem operands_of_decode {c : Word} {i : Instr} {w : Width} {sc : Scale} {f : Fmt} (h : decode c = .ok i)
    (ho : operandsOf i = some (w, sc, f)) : widthOfSel (c.extractLsb' 4 2) = some w ∧
      sc = scaleOfSel (c.extractLsb' 6 1) ∧ f = fmtOfSel (c.extractLsb' 7 1) := by
  have plain {j : Instr} (hj : operandsOf j = none) (hd : decodePlain c j = .ok i) : False := by
    obtain ⟨-, rfl⟩ := (decodePlain_eq_ok_iff c i j).1 hd
    simp [hj] at ho
  have scalar {mk : Width → Scale → Fmt → Instr} (hmk : ∀ w sc f, operandsOf (mk w sc f) = some (w, sc, f))
      (hd : decodeScalar c mk = .ok i) : widthOfSel (c.extractLsb' 4 2) = some w ∧
        sc = scaleOfSel (c.extractLsb' 6 1) ∧ f = fmtOfSel (c.extractLsb' 7 1) := by
    obtain ⟨w', hw, rfl⟩ := (decodeScalar_eq_ok_iff c mk i).1 hd
    obtain ⟨rfl, rfl, rfl⟩ : w' = w ∧ scaleOfSel _ = sc ∧ fmtOfSel _ = f := by simpa [hmk] using ho
    exact ⟨hw, rfl, rfl⟩
  obtain ⟨-, ⟨-, hd⟩ | ⟨-, hd⟩ | ⟨-, hd⟩ | ⟨-, hd⟩ | ⟨-, hd⟩⟩ := (decode_eq_ok_iff c i).1 h
  · exact (plain rfl hd).elim
  · exact scalar operandsOf_qencOf hd
  · exact scalar operandsOf_qdecOf hd
  · exact (plain rfl hd).elim
  · exact (plain rfl hd).elim

/-- The width a legal WSEL selects, its last value by default. -/
theorem width_of_widthOfSel {b : BitVec 2} {w : Width} (h : widthOfSel b = some w) :
    w = if b = 0b00#2 then .w2 else if b = 0b01#2 then .w3 else .w4 := by
  unfold widthOfSel at h
  split_ifs at h ⊢ <;> exact (Option.some.inj h).symm

theorem factor_scaleOfSel (b : BitVec 1) : (scaleOfSel b).factor = if b = 0#1 then 100 else 1000000 := by
  unfold scaleOfSel
  split_ifs <;> rfl

/-- Settles O3: legality is what `decode` asks, a legal word is one byte, and the operands are those of the selectors. -/
theorem legalityAndOperandDecode : Obligations.LegalityAndOperandDecode := by
  refine ⟨exists_decode_iff_legal, legal_iff_mem_legalWords, fun c w sc fmt h => ?_⟩
  obtain ⟨i, hi, ho⟩ : ∃ i, decode c = .ok i ∧ operandsOf i = some (w, sc, fmt) :=
    h.elim (fun h => ⟨_, h, operandsOf_qencOf w sc fmt⟩) (fun h => ⟨_, h, operandsOf_qdecOf w sc fmt⟩)
  obtain ⟨hw, rfl, rfl⟩ := operands_of_decode hi ho
  exact ⟨width_of_widthOfSel hw, factor_scaleOfSel _, rfl⟩

/-! ## The report of an illegal word (R77) -/

theorem exists_decode_error_of_illegal {c : Word} (h : Legal c = false) : ∃ e, decode c = .error e := by
  cases hd : decode c with
  | error e => exact ⟨e, rfl⟩
  | ok i => exact absurd ((exists_decode_iff_legal c).1 ⟨i, hd⟩) (by simp [h])

/-- An illegal word in PEND raises ILL, which names no field. -/
theorem runPending_illegal {s : State} (h : Legal s.pend = false) : runPending s = .next (s.raiseError .ill noField) := by
  obtain ⟨e, he⟩ := exists_decode_error_of_illegal h
  simp [runPending, he, execIllegal]

/-- The Engine's turn, with a command pending, runs it and completes it. -/
theorem step_engine_busy {s t : State} {ts : List Turn} (hb : s.status.busy = true) (he : s.engineNext ts)
    (hr : runPending (s.withTurns ts) = .next t) : step s = .next t.complete := by
  rw [step_engineNext he]
  simp [takeTurn, hb, engineStep, hr, thenComplete]

/-- ILL sets S_ILL and no other sticky flag (R153). -/
theorem Status.raise_ill (st : Status) (field : BitVec 5) :
    st.raise .ill field = { st with err := true, errcode := .ill, efield := field, sIll := true } := by
  have hflen : (ErrCode.ill == ErrCode.flen) = false := rfl
  simp [Status.raise, hflen]

/-- Settles O6: the Engine's step is the report of ILL and then the completion. -/
theorem illegalWordReportsIll : Obligations.IllegalWordReportsIll := by
  intro s ts hb he hl
  rw [step_engine_busy hb he (runPending_illegal hl), State.raiseError, Status.raise_ill]
  rfl

end Sys2Proof.Machine
end

section
/-! SUPPORT. The statements about the Scalar Quantizer (40_scalar_quantizer.md): truncation, the event of a product, what
Quantize emits, and the byte group and accumulator between the two directions. -/

namespace Sys2Proof.Machine

/-! ## Truncation (R92) -/

/-- Truncation takes the whole ones out of a count of units. -/
theorem trunc_natAbs (fmt : Fmt) (neg : Bool) (n : Nat) : (fmt.trunc neg n).natAbs = n / 2 ^ fmt.unitExp := by
  rw [← Nat.shiftRight_eq_div_pow, Fmt.trunc]
  split_ifs
  · rw [Int.natAbs_neg, Int.natAbs_natCast]
  · rw [Int.natAbs_natCast]

theorem trunc_false_nonneg (fmt : Fmt) (n : Nat) : 0 ≤ fmt.trunc false n := Int.natCast_nonneg _

theorem trunc_true_nonpos (fmt : Fmt) (n : Nat) : fmt.trunc true n ≤ 0 := Int.neg_nonpos_of_nonneg (Int.natCast_nonneg _)

/-- Settles O32: the magnitude of `trunc` is the quotient by the units of 1. -/
theorem truncationTowardZero : Obligations.TruncationTowardZero := by
  intro fmt neg n
  have hpos : 0 < 2 ^ fmt.unitExp := Nat.two_pow_pos _
  rw [← Int.natAbs_eq_zero, trunc_natAbs]
  refine ⟨⟨Nat.div_mul_le_self _ _, ?_⟩, ?_, ?_, Nat.div_eq_of_lt⟩
  · rw [Nat.mul_comm]
    exact Nat.lt_mul_div_succ n hpos
  · rintro rfl
    exact trunc_false_nonneg fmt n
  · rintro rfl
    exact trunc_true_nonpos fmt n

/-! ## RR(w) and events (R93) -/

/-- RR(w) lies in the 32-bit signed range. -/
theorem neg_two_pow_31_le_rrMin (w : Width) : -2 ^ 31 ≤ rrMin w := by cases w <;> decide

theorem rrMax_le (w : Width) : rrMax w ≤ 2 ^ 31 - 1 := by cases w <;> decide

theorem rrMin_le_rrMax (w : Width) : rrMin w ≤ rrMax w := by cases w <;> decide

/-- A 32-bit word holds `t` as a signed number exactly when `t` lies in the signed range. -/
theorem toInt_ofInt_32_eq_iff (t : Int) : (BitVec.ofInt 32 t).toInt = t ↔ rrMin .w4 ≤ t ∧ t ≤ rrMax .w4 := by
  rw [BitVec.toInt_ofInt, Int.bmod_eq_iff (by decide)]
  simp only [rrMin, rrMax]
  omega

/-- RR(w) is the set of integers that Dequantize's accumulator gives back from their group. -/
theorem accumulator_groupOf_eq_iff (w : Width) (t : Int) :
    accumulator (groupOf t w) w = t ↔ rrMin w ≤ t ∧ t ≤ rrMax w := by
  rw [accumulator_groupOf]
  cases w with
  | w2 => show t % 2 ^ 16 = t ↔ 0 ≤ t ∧ t ≤ 65535; omega
  | w3 => show t % 2 ^ 24 = t ↔ 0 ≤ t ∧ t ≤ 16777215; omega
  | w4 => simpa using toInt_ofInt_32_eq_iff t

/-- In the 32-bit signed range, below RR(w) is what `Classify` tests for SGN. -/
theorem lt_rrMin_iff {t : Int} (ht : -2 ^ 31 ≤ t) (w : Width) : t < rrMin w ↔ w ≠ .w4 ∧ t < 0 := by
  cases w with
  | w2 => simp [rrMin]
  | w3 => simp [rrMin]
  | w4 => simpa [rrMin] using ht

/-- `Classify` of an integer with its two OVF tests as one: past the 32-bit range below or past RR(w) above. -/
theorem classifyInt_eq (t : Int) (w : Width) : classifyInt t w =
    if t < -2 ^ 31 ∨ rrMax w < t then .ovf else if t < rrMin w then .sgn else .none := by
  have hmax := rrMax_le w
  unfold classifyInt
  by_cases hovf : t < -2 ^ 31 ∨ rrMax w < t
  · rw [if_pos hovf]
    by_cases h32 : t < -2 ^ 31 ∨ t > 2 ^ 31 - 1
    · rw [if_pos h32]
    · have hw : w ≠ .w4 := by rintro rfl; exact h32 hovf
      rw [if_neg h32, if_pos ⟨hw, by omega⟩]
  · rw [if_neg hovf, if_neg (by omega), if_neg (fun h => hovf (Or.inr h.2))]
    simp only [lt_rrMin_iff (show -2 ^ 31 ≤ t by omega)]

theorem classifyInt_eq_none_iff (t : Int) (w : Width) : classifyInt t w = .none ↔ rrMin w ≤ t ∧ t ≤ rrMax w := by
  have hmin := neg_two_pow_31_le_rrMin w
  rw [classifyInt_eq]
  split_ifs <;> simp <;> omega

theorem classifyInt_eq_sgn_iff (t : Int) (w : Width) :
    classifyInt t w = .sgn ↔ w ≠ .w4 ∧ -2 ^ 31 ≤ t ∧ t < 0 := by
  have hle := rrMin_le_rrMax w
  rw [classifyInt_eq]
  by_cases hlow : t < -2 ^ 31
  · rw [if_pos (Or.inl hlow)]
    simp only [reduceCtorEq, false_iff]
    omega
  · rw [and_left_comm, ← lt_rrMin_iff (by omega)]
    split_ifs <;> simp <;> omega

theorem classifyInt_eq_ovf_iff (t : Int) (w : Width) : classifyInt t w = .ovf ↔ t < -2 ^ 31 ∨ rrMax w < t := by
  rw [classifyInt_eq]
  split_ifs <;> simp <;> omega

/-- Settles O33: the accumulator's fixed points, and the three events of a finite product. -/
theorem eventClassification : Obligations.EventClassification :=
  ⟨accumulator_groupOf_eq_iff, by decide, fun _ _ _ => ⟨rfl, rfl⟩, fun _ w _ _ =>
    ⟨rfl, classifyInt_eq_none_iff _ w, classifyInt_eq_sgn_iff _ w, classifyInt_eq_ovf_iff _ w⟩⟩

/-! ## What Quantize emits (R94, R95, R97) -/

/-- Quantize answers with the event of the product and the group of the integer emitted. -/
theorem quantize_eq_of_classify {x : FloatVal} {fmt : Fmt} {w : Width} {sc : Scale} {ev : Event} {t : Int}
    (h : classify fmt (fmt.scaledProduct x sc.factor) w = (ev, t)) (pol : Policy) : quantize x fmt w sc pol =
      (ev, (emitted pol (fmt.scaledProduct x sc.factor) ev t w).map (fun k => groupOf k w)) := by
  simp [quantize, h]

/-- A product with an event other than INV is finite. -/
theorem exists_finite_of_classify {fmt : Fmt} {p : FloatVal} {w : Width} {ev : Event} {t : Int}
    (h : classify fmt p w = (ev, t)) (hev : ev ≠ .inv) : ∃ neg n, p = .finite neg n := by
  cases p with
  | nan => exact absurd (Prod.mk.inj h).1.symm hev
  | inf neg => exact absurd (Prod.mk.inj h).1.symm hev
  | finite neg n => exact ⟨neg, n, rfl⟩

@[simp] theorem emitted_none (pol : Policy) (p : FloatVal) (t : Int) (w : Width) : emitted pol p .none t w = some t := rfl

theorem emitted_wrap {ev : Event} (hev : ev ≠ .inv) (p : FloatVal) (t : Int) (w : Width) :
    emitted .wrap p ev t w = some t := by
  simp [emitted, hev]

theorem emitted_wrap_inv (p : FloatVal) (t : Int) (w : Width) : emitted .wrap p .inv t w = some 0 := rfl

theorem emitted_clamp {ev : Event} (hev : ev ≠ .none) (p : FloatVal) (t : Int) (w : Width) :
    emitted .clamp p ev t w = some (clampData p t w) := by
  simp [emitted, hev]

theorem emitted_reject {ev : Event} (hev : ev ≠ .none) (p : FloatVal) (t : Int) (w : Width) :
    emitted .reject p ev t w = none := by
  simp [emitted, hev]

theorem clampInt_eq_max_min {lo hi : Int} (h : lo ≤ hi) (t : Int) : clampInt t lo hi = max lo (min t hi) := by
  unfold clampInt
  split_ifs <;> omega

theorem clampData_finite (neg : Bool) (n : Nat) (t : Int) (w : Width) :
    clampData (.finite neg n) t w = max (rrMin w) (min t (rrMax w)) := clampInt_eq_max_min (rrMin_le_rrMax w) t

/-- Settles O34: `emitted` under each policy, the CLAMP integer by the kind of product. -/
theorem quantizeData : Obligations.QuantizeData := by
  rintro x fmt w sc p ev t rfl hc
  have hq := quantize_eq_of_classify hc
  refine ⟨?_, fun hev => ?_, ?_, fun hev => ?_⟩
  · rintro rfl pol
    rw [hq, emitted_none]
    rfl
  · have hinv : ev ≠ .inv := by rintro rfl; simp at hev
    have hnone : ev ≠ .none := by rintro rfl; simp at hev
    obtain ⟨neg, n, hp⟩ := exists_finite_of_classify hc hinv
    rw [hq, hq, emitted_wrap hinv, emitted_clamp hnone, hp, clampData_finite]
    exact ⟨rfl, rfl⟩
  · rintro rfl
    rw [hq, hq, emitted_wrap_inv, emitted_clamp (by decide)]
    refine ⟨?_, ?_, ?_, ?_⟩
    · simp [groupOf]
    · intro hp; simp [hp, clampData, groupOf]
    · intro hp; rw [hp]; rfl
    · intro hp; rw [hp]; rfl
  · rw [hq, emitted_reject hev]
    rfl

/-! ## The byte group (R96) -/

/-- The group is the low bytes of the 32-bit two's-complement integer. -/
theorem groupOf_eq_toNat_mod (k : Int) (w : Width) : groupOf k w = (BitVec.ofInt 32 k).toNat % 2 ^ (8 * w.bytes) := by
  rw [groupOf, BitVec.toNat_ofInt]
  cases w <;> simp only [Width.bytes] <;> omega

/-- Cutting a number to its low `m` bits leaves a byte that ends below bit `m` as it was. -/
theorem shiftRight_mod_256_of_le {m s : Nat} (h : s + 8 ≤ m) (a : Nat) :
    (a % 2 ^ m) >>> s % 256 = a >>> s % 256 := by
  obtain ⟨r, rfl⟩ := Nat.exists_eq_add_of_le h
  rw [Nat.shiftRight_eq_div_pow, Nat.shiftRight_eq_div_pow, Nat.add_assoc, Nat.pow_add, Nat.mod_mul_right_div_self,
    Nat.mod_mod_of_dvd _ (Nat.pow_dvd_pow 2 (Nat.le_add_right 8 r))]

/-- Settles O35: the group's bytes are the low bytes of the 32-bit word. -/
theorem byteGroupIsBigEndian : Obligations.ByteGroupIsBigEndian := by
  refine fun k w => ⟨Int.toNat_of_nonneg (Int.emod_nonneg k (by positivity)), fun j hj => ?_⟩
  rw [groupOf_eq_toNat_mod, shiftRight_mod_256_of_le (by omega), BitVec.toNat_setWidth, BitVec.toNat_ushiftRight]

/-! ## The accumulator (R98) -/

theorem accumulator_of_ne_w4 {w : Width} (hw : w ≠ .w4) (g : Nat) : accumulator g w = (g % 2 ^ (8 * w.bytes) : Nat) :=
  if_neg hw

theorem accumulator_w4 (g : Nat) : accumulator g .w4 = (BitVec.ofNat 32 g).toInt := by
  rw [accumulator, if_pos rfl]
  exact congrArg BitVec.toInt (BitVec.eq_of_toNat_eq (by simp [Width.bytes]))

/-- Below w = 4 the group stays under bit 31. -/
theorem mod_lt_of_ne_w4 {w : Width} (hw : w ≠ .w4) (g : Nat) : g % 2 ^ (8 * w.bytes) < 2 ^ 31 := by
  cases w with
  | w2 => show g % 2 ^ 16 < 2 ^ 31; omega
  | w3 => show g % 2 ^ 24 < 2 ^ 31; omega
  | w4 => exact absurd rfl hw

/-- A word is negative exactly when its first byte is 0x80 or more. -/
theorem toInt_ofNat_32 (a : Nat) : (BitVec.ofNat 32 a).toInt =
    if 0x80 ≤ a % 2 ^ 32 / 2 ^ 24 then ((a % 2 ^ 32 : Nat) : Int) - 2 ^ 32 else ((a % 2 ^ 32 : Nat) : Int) := by
  rw [BitVec.toInt_eq_toNat_cond, BitVec.toNat_ofNat]
  split_ifs <;> omega

/-- Settles O36: below w = 4 the word's sign bit is clear, and at w = 4 it is the first byte's. -/
theorem dequantizeAccumulator : Obligations.DequantizeAccumulator := by
  refine fun g w => ⟨?_, fun hw => accumulator_of_ne_w4 hw g, ?_⟩
  · by_cases hw : w = .w4
    · exact if_pos hw
    · have hlt := mod_lt_of_ne_w4 hw g
      rw [accumulator_of_ne_w4 hw]
      generalize g % 2 ^ (8 * w.bytes) = a at hlt ⊢
      rw [toInt_ofNat_32, Nat.mod_eq_of_lt (by omega), if_neg (by omega)]
  · rintro rfl
    rw [accumulator_w4, toInt_ofNat_32]

end Sys2Proof.Machine
end

section
/-! SUPPORT. The statements about the Frame Codec (41_frame_codec.md): the field table, FENC's operands, field isolation
and the round trip of FENC and FDEC. -/

namespace Sys2Proof.Machine

/-! ## The field table (R121) -/

/-- Settles O44: `fieldTable` is a constant, so each clause is a finite check of its 19 rows. -/
theorem fieldTableLayout : Obligations.FieldTableLayout :=
  ⟨rfl, rfl, by decide, rfl, by decide⟩

/-! ## The operands of FENC (R122) -/

theorem fieldResult_quantized (s : State) (slot : Slot) (w : Width) (sc : Scale) (fmt : Fmt) (off : Nat) :
    fieldResult s ⟨slot, .quantized w sc fmt, off⟩ = quantize (fmt.val (slot.input s)) fmt w sc s.policy := rfl

/-- Settles O45: row by row, a quantized field is Quantize of its slot's register, and a raw one is the register. -/
theorem fencOperands : Obligations.FencOperands := by
  intro s
  simp only [fieldTable, List.map_cons, List.map_nil, fieldResult_quantized, fieldResult_raw s ⟨_, .raw _, _⟩ rfl]
  rfl

/-! ## Field isolation (R127) -/

/-- A byte of the frame FENC has written is its field's. -/
theorem read_encodedFrame_inside {s : State} {f : Field} {g a : Nat} (hf : f ∈ fieldTable)
    (hg : (fieldResult s f).2 = some g) (h1 : f.off ≤ a) (h2 : a < f.off + f.bytes) :
    (encodedFrame s).read a = BitVec.ofNat 8 (g >>> (8 * (f.off + f.bytes - 1 - a))) :=
  read_writeFields_inside s fieldTable s.frame hf fieldTable_disjoint hg h1 h2

/-- The bytes of a field with data depend on that field's result alone. -/
theorem read_encodedFrame_congr {s s' : State} {f : Field} {a : Nat} (hf : f ∈ fieldTable)
    (hres : fieldResult s f = fieldResult s' f) (hsome : ∃ g, (fieldResult s f).2 = some g)
    (h1 : f.off ≤ a) (h2 : a < f.off + f.bytes) : (encodedFrame s).read a = (encodedFrame s').read a := by
  obtain ⟨g, hg⟩ := hsome
  rw [read_encodedFrame_inside hf hg h1 h2, read_encodedFrame_inside hf (hres ▸ hg) h1 h2]

/-- Settles O50: a byte outside the changed field lies in another one, whose input the two states share. -/
theorem fencFieldIsolation : Obligations.FencFieldIsolation := by
  intro s s' f _ hpol hinput hw hw'
  refine ⟨fenc s, fenc s', exec_fenc s, exec_fenc s', fun a ha hout => ?_⟩
  obtain ⟨f', hf', h1, h2⟩ := fieldTable_covers ⟨a, ha⟩
  have hne : f' ≠ f := by rintro rfl; exact hout.elim (Nat.not_lt.2 h1) (Nat.not_le.2 h2)
  rw [(fenc_written hw).1, (fenc_written hw').1]
  exact read_encodedFrame_congr hf' (fieldResult_congr (hinput f' hf' hne) hpol) (field_some hw hf') h1 h2

/-! ## FENC then FDEC (R128) -/

theorem decodedField_quantized (m : Memory) (slot : Slot) (w : Width) (sc : Scale) (fmt : Fmt) (off : Nat) :
    decodedField m ⟨slot, .quantized w sc fmt, off⟩ = dequantize (m.readGroup off w.bytes) w sc fmt := rfl

/-- With no event Dequantize's accumulator is the integer that was emitted (R93, R98). -/
theorem accumulator_groupOf_of_classify_none {fmt : Fmt} {p : FloatVal} {w : Width} {k : Int}
    (h : classify fmt p w = (.none, k)) : accumulator (groupOf k w) w = k := by
  obtain ⟨neg, n, rfl⟩ := exists_finite_of_classify h nofun
  obtain ⟨hev, rfl⟩ := Prod.mk.inj h
  exact (accumulator_groupOf_eq_iff w _).2 ((classifyInt_eq_none_iff _ w).1 hev)

/-- A quantized field with no event decodes to its truncated product over the scale, rounded once. -/
theorem decodedField_encodedFrame_quantized {s : State} {slot : Slot} {w : Width} {sc : Scale} {fmt : Fmt} {off : Nat}
    {k : Int} (hf : (⟨slot, .quantized w sc fmt, off⟩ : Field) ∈ fieldTable)
    (hc : classify fmt (fmt.scaledProduct (fmt.val (slot.input s)) sc.factor) w = (.none, k)) :
    decodedField (encodedFrame s) ⟨slot, .quantized w sc fmt, off⟩ = fmt.roundedQuotient k sc.factor := by
  have hg : (fieldResult s ⟨slot, .quantized w sc fmt, off⟩).2 = some (groupOf k w) := by
    rw [fieldResult_quantized, quantize_eq_of_classify hc, emitted_none]
    rfl
  have hread : (encodedFrame s).readGroup off w.bytes = groupOf k w := readGroup_encodedFrame hf hg
  rw [decodedField_quantized, hread, dequantize, accumulator_groupOf_of_classify_none hc]

/-- A raw field decodes to the bits it was encoded from. -/
theorem decodedField_encodedFrame_raw {s : State} {slot : Slot} {n off : Nat}
    (hf : (⟨slot, .raw n, off⟩ : Field) ∈ fieldTable) :
    decodedField (encodedFrame s) ⟨slot, .raw n, off⟩ = slot.input s :=
  readGroup_encodedFrame hf (congrArg Prod.snd (fieldResult_raw s _ rfl))

/-- The rows of BIN in the table (R120). -/
theorem u8_mem_fieldTable : ∀ j : Fin 4, (⟨.u8 j, .raw 1, 34 + j⟩ : Field) ∈ fieldTable := by decide

/-- Settles O51: FDEC reads each field's group back from the frame FENC wrote, and decodes it to the field's value. -/
theorem fencFdecRoundTrip : Obligations.FencFdecRoundTrip := by
  intro s hw
  obtain ⟨hframe, hlen⟩ := fenc_written hw
  have hout := fdec_outputs hlen
  rw [hframe] at hout
  refine ⟨fenc s, fdec (fenc s), exec_fenc s, exec_fdec _, Vector.ext fun j hj => ?_, ?_, ?_, ?_⟩
  · have hmem := u8_mem_fieldTable ⟨j, hj⟩
    have hbout := hout _ hmem
    rw [decodedField_encodedFrame_raw hmem] at hbout
    exact hbout.trans (by simp [Slot.input])
  · have hmem : (⟨.u32, .raw 4, 38⟩ : Field) ∈ fieldTable := by decide
    have hcout := hout _ hmem
    rw [decodedField_encodedFrame_raw hmem] at hcout
    exact hcout.trans (by simp [Slot.input])
  · intro i w sc off k hmem hc
    have hdout := hout _ hmem
    rwa [decodedField_encodedFrame_quantized hmem hc] at hdout
  · intro j w sc off k hmem hc
    have hfout := hout _ hmem
    rwa [decodedField_encodedFrame_quantized hmem hc] at hfout

end Sys2Proof.Machine
end

section
/-! SUPPORT. The statement about which command can report which error (60_exceptions.md, R152). -/

namespace Sys2Proof.Machine

/-! ## The codes a command can report -/

/-- The error codes a legal command can report (R152). -/
def reportable : Instr → List ErrCode
  | .nop | .qdecW2 _ _ | .qdecW3 _ _ | .qdecW4 _ _ => []
  | .qencW2 _ _ | .qencW3 _ _ | .qencW4 _ _ | .fenc => [.qovf, .qsign, .qinv]
  | .fdec => [.flen]

@[simp] theorem reportable_nop : reportable .nop = [] := rfl
@[simp] theorem reportable_fenc : reportable .fenc = [.qovf, .qsign, .qinv] := rfl
@[simp] theorem reportable_fdec : reportable .fdec = [.flen] := rfl

@[simp] theorem reportable_qencOf (w : Width) (sc : Scale) (fmt : Fmt) :
    reportable (qencOf w sc fmt) = [.qovf, .qsign, .qinv] := by
  cases w <;> rfl

@[simp] theorem reportable_qdecOf (w : Width) (sc : Scale) (fmt : Fmt) : reportable (qdecOf w sc fmt) = [] := by
  cases w <;> rfl

theorem ill_not_mem_reportable (i : Instr) : ErrCode.ill ∉ reportable i := by
  cases i <;> simp [reportable]

/-- A command keeps ERRCODE or reports a code of its own. -/
theorem exec_errcode {i : Instr} {s t : State} (h : exec i s = .next t) :
    t.status.errcode = s.status.errcode ∨ t.status.errcode ∈ reportable i := by
  obtain ⟨st, hreport, -, -, -, hkept, -⟩ := exec_status h
  rcases hreport with ht | ⟨code, field, ht, hcode⟩
  · exact Or.inl (ht ▸ hkept)
  · right
    rw [ht, Status.raise_errcode]
    rcases hcode with ⟨rfl, -, rfl⟩ | ⟨hquant, -, -, rfl | ⟨w, sc, fmt, rfl⟩⟩
    · simp
    · simpa using hquant
    · simpa using hquant

/-! ## The Engine's step with a command pending -/

/-- While a command is pending ERRCODE is NONE (R56). -/
theorem State.Inv.errcode_of_busy {s : State} (h : s.Inv) (hb : s.status.busy = true) : s.status.errcode = .none := by
  obtain ⟨-, herr, -⟩ := h.pending hb
  exact h.errCode.1 herr

/-- A completed legal command reports nothing or a code of its own (R152). -/
theorem step_engine_errcode_of_decode {s t : State} {ts : List Turn} {i : Instr} (hinv : s.Inv)
    (hb : s.status.busy = true) (he : s.engineNext ts) (hstep : step s = .next t) (hi : decode s.pend = .ok i) :
    t.status.errcode = .none ∨ t.status.errcode ∈ reportable i := by
  obtain ⟨u, hu⟩ := exec_next i (s.withTurns ts)
  have hrun : runPending (s.withTurns ts) = .next u := by simp [runPending, hi, hu]
  rw [step_engine_busy hb he hrun] at hstep
  obtain rfl := Host.Outcome.next.inj hstep
  have hcode := exec_errcode hu
  rwa [State.withTurns_status, hinv.errcode_of_busy hb] at hcode

/-- A completed illegal word reports ILL (R77). -/
theorem step_engine_errcode_of_illegal {s t : State} {ts : List Turn} (hb : s.status.busy = true)
    (he : s.engineNext ts) (hstep : step s = .next t) (hl : Legal s.pend = false) : t.status.errcode = .ill := by
  rw [step_engine_busy hb he (runPending_illegal hl)] at hstep
  obtain rfl := Host.Outcome.next.inj hstep
  rfl

/-- Settles O55: nothing is reported before the step, an illegal word then reports ILL, and a legal command nothing or a
code of its own, which is never ILL. -/
theorem commandErrorRepertoire : Obligations.CommandErrorRepertoire := by
  intro s t ts hinv hb he hstep
  have hown {i : Instr} := step_engine_errcode_of_decode (i := i) hinv hb he hstep
  refine ⟨⟨step_engine_errcode_of_illegal hb he hstep, fun hill => ?_⟩, fun i hi => ⟨?_, ?_, ?_⟩⟩
  · by_contra hl
    obtain ⟨i, hi⟩ := (exists_decode_iff_legal s.pend).2 (Bool.eq_true_of_not_eq_false hl)
    rcases hown hi with hnone | hmem
    · exact absurd (hill.symm.trans hnone) nofun
    · exact ill_not_mem_reportable i (hill ▸ hmem)
  · rintro (rfl | ⟨w, sc, fmt, rfl⟩) <;> simpa using hown hi
  · rintro (rfl | ⟨w, sc, fmt, rfl⟩) <;> simpa using hown hi
  · rintro rfl
    simpa using hown hi

end Sys2Proof.Machine
end

section
/-! SUPPORT. The statement about Host writes that find a command pending (70_reset_and_hazards.md, R176). -/

namespace Sys2Proof.Machine

/-! ## The write hazard (R176) -/

/-- Settles O16: at every offset of the window the dropped write is `State.hazard`, which sets S_HAZ and nothing else. -/
theorem busyWritesAreDropped : Obligations.BusyWritesAreDropped :=
  fun _ _ _ _ hr hb hw hts => step_write_busy hr hb hw hts

end Sys2Proof.Machine
end

section
/-! SUPPORT. The statements about the encoding of commands (30_encoding.md): decode and encode are inverse to one another. -/

namespace Sys2Proof.Machine

/-- Settles O1: `decode` computes on each of the nine words. -/
theorem sampleCommandWordsDecode : Obligations.SampleCommandWordsDecode := by
  unfold Obligations.SampleCommandWordsDecode
  decide

/-- Every term of `Instr` is well formed (R72 to R74). -/
@[simp] theorem wellFormed_eq_true (i : Instr) : i.wellFormed = true := by cases i <;> rfl

/-- The word of a command decodes to that command (R79). -/
theorem decode_encode (i : Instr) : decode (encode i) = .ok i := by
  cases i with
  | nop => exact Laws.EncodeDecode.nop
  | qencW2 sc fmt => exact Laws.EncodeDecode.qencW2 sc fmt
  | qencW3 sc fmt => exact Laws.EncodeDecode.qencW3 sc fmt
  | qencW4 sc fmt => exact Laws.EncodeDecode.qencW4 sc fmt
  | qdecW2 sc fmt => exact Laws.EncodeDecode.qdecW2 sc fmt
  | qdecW3 sc fmt => exact Laws.EncodeDecode.qdecW3 sc fmt
  | qdecW4 sc fmt => exact Laws.EncodeDecode.qdecW4 sc fmt
  | fenc => exact Laws.EncodeDecode.fenc
  | fdec => exact Laws.EncodeDecode.fdec

/-- Each of the 27 legal words is the encoding of what it decodes to (R76, R79). -/
theorem map_encode_decode_legalWords : ∀ n ∈ legalWords,
    (decode (BitVec.ofNat 32 n)).map encode = .ok (BitVec.ofNat 32 n) := by decide

/-- A word that decodes is the encoding of its command: it is one of the legal words. -/
theorem eq_encode_of_decode {c : Word} {i : Instr} (h : decode c = .ok i) : c = encode i := by
  have hmem := (legal_iff_mem_legalWords c).1 ((exists_decode_iff_legal c).1 ⟨i, h⟩)
  have hword := map_encode_decode_legalWords _ hmem
  rw [BitVec.ofNat_toNat, BitVec.setWidth_eq, h] at hword
  exact (Except.ok.inj hword).symm

/-- Settles O2: `decode_encode` one way, `eq_encode_of_decode` the other. -/
theorem decodeEncodeAgree : Obligations.DecodeEncodeAgree := by
  refine fun c i => ⟨fun h => ⟨wellFormed_eq_true i, eq_encode_of_decode h⟩, ?_⟩
  rintro ⟨-, rfl⟩
  exact decode_encode i

end Sys2Proof.Machine
end

section
/-! SUPPORT. The statements about the invariant (10_state.md, 60_exceptions.md): it holds at reset, and every step keeps
it. -/

namespace Sys2Proof.Machine

/-! ## The invariant's parts -/

/-- What the invariant says of STATUS. -/
structure Status.Coherent (st : Status) : Prop where
  /-- no error, no code (R26, R151) -/
  errCode : st.err = false ↔ st.errcode = .none
  /-- EFIELD names a field only under a quantization error (R151, U20) -/
  errField : st.efield = noField ∨
    (st.efield.toNat ≤ 13 ∧ (st.errcode = .qovf ∨ st.errcode = .qsign ∨ st.errcode = .qinv))
  /-- nothing is reported of a pending command (R56) -/
  pending : st.busy = true → st.done = false ∧ st.err = false ∧ st.efield = noField

/-- The invariant is a canonical FRAME, a coherent STATUS, and reset values while RESET is asserted. -/
theorem State.inv_iff (s : State) :
    s.Inv ↔ s.frame.wf ∧ s.status.Coherent ∧ (s.resetLine = true → s.assertReset = s) :=
  ⟨fun h => ⟨h.frameWf, ⟨h.errCode, h.errField, h.pending⟩, h.inReset⟩,
    fun ⟨hframe, hstatus, hreset⟩ => ⟨hframe, hstatus.errCode, hstatus.errField, hstatus.pending, hreset⟩⟩

/-- With RESET released the invariant is about FRAME and STATUS alone. -/
theorem State.inv_of_released {s : State} (hframe : s.frame.wf) (hstatus : s.status.Coherent)
    (hr : s.resetLine = false) : s.Inv :=
  s.inv_iff.2 ⟨hframe, hstatus, fun hreset => absurd (hr.symm.trans hreset) Bool.false_ne_true⟩

/-! ## STATUS -/

theorem Status.reset_coherent : Status.reset.Coherent := ⟨by decide, Or.inl rfl, nofun⟩

theorem Status.issue_coherent (st : Status) : st.issue.Coherent := ⟨by simp, Or.inl rfl, fun _ => ⟨rfl, rfl, rfl⟩⟩

theorem Status.Coherent.hazard {st : Status} (h : st.Coherent) : st.hazard.Coherent := ⟨h.errCode, h.errField, h.pending⟩

theorem Status.Coherent.clear {st : Status} (h : st.Coherent) (d : Word) : (st.clear d).Coherent :=
  ⟨h.errCode, h.errField, h.pending⟩

/-- Completion of a command that leaves the report as it was (R154). -/
theorem Status.Coherent.complete_of_report_eq {st st' : Status} (h : st.Coherent) (herr : st'.err = st.err)
    (hcode : st'.errcode = st.errcode) (hfield : st'.efield = st.efield) : st'.complete.Coherent := by
  refine ⟨?_, ?_, nofun⟩
  · rw [Status.complete_err, Status.complete_errcode, herr, hcode]
    exact h.errCode
  · rw [Status.complete_efield, Status.complete_errcode, hfield, hcode]
    exact h.errField

/-- Completion of a command that has raised an error (R153, R154). -/
theorem Status.complete_raise_coherent (st : Status) {code : ErrCode} {field : BitVec 5} (hcode : code ≠ .none)
    (hfield : field = noField ∨ (field.toNat ≤ 13 ∧ (code = .qovf ∨ code = .qsign ∨ code = .qinv))) :
    (st.raise code field).complete.Coherent :=
  ⟨by simpa using hcode, hfield, nofun⟩

/-- STATUS is coherent after any command, by the two ways it can end: with a report and without. -/
theorem exec_complete_coherent {i : Instr} {s t : State} (hs : s.status.Coherent) (h : exec i s = .next t) :
    t.status.complete.Coherent := by
  obtain ⟨st, hreport, -, -, herr, hcode, hfield, -⟩ := exec_status h
  rcases hreport with ht | ⟨code, field, ht, ⟨rfl, rfl, -⟩ | ⟨hquant, hrange, -⟩⟩ <;> rw [ht]
  · exact hs.complete_of_report_eq herr hcode hfield
  · exact st.complete_raise_coherent nofun (Or.inl rfl)
  · refine st.complete_raise_coherent ?_ (hrange.imp id fun hle => ⟨hle, hquant⟩)
    rcases hquant with rfl | rfl | rfl <;> exact nofun

/-! ## The moves -/

theorem State.reset_inv : State.reset.Inv := State.inv_of_released Memory.nil_wf Status.reset_coherent rfl

/-- The invariant does not look at the moves to come. -/
theorem State.Inv.withTurns {s : State} (h : s.Inv) (ts : List Turn) : (s.withTurns ts).Inv := by
  obtain ⟨hframe, hstatus, hreset⟩ := s.inv_iff.1 h
  exact (State.inv_iff _).2 ⟨hframe, hstatus, fun hr => congrArg (State.withTurns · ts) (hreset hr)⟩

/-- No command is pending while RESET is asserted (R170). -/
theorem State.Inv.released_of_busy {s : State} (h : s.Inv) (hb : s.status.busy = true) : s.resetLine = false := by
  by_contra hr
  have hreset := h.inReset (Bool.eq_true_of_not_eq_false hr)
  rw [← hreset] at hb
  exact Bool.false_ne_true hb

/-- Running and completing the pending word keeps the invariant (R175). -/
theorem State.Inv.engine {s u : State} (h : s.Inv) (hb : s.status.busy = true) (hrun : runPending s = .next u) :
    u.complete.Inv := by
  obtain ⟨hframe, hstatus, -⟩ := s.inv_iff.1 h
  have hr := h.released_of_busy hb
  rcases runPending_cases hrun with ⟨i, -, hexec⟩ | ⟨e, -, rfl⟩
  · obtain ⟨-, -, -, -, -, -, -, hline, -⟩ := exec_keep hexec
    have hframe' : u.frame.wf := exec_frame_wf hframe hexec
    exact State.inv_of_released hframe' (exec_complete_coherent hstatus hexec) (hline.trans hr)
  · exact State.inv_of_released hframe (s.status.complete_raise_coherent nofun (Or.inl rfl)) hr

theorem effect_frame_wf {a : Access} (ha : a.refusal = none) {s : State} (h : s.frame.wf) : (a.effect s).frame.wf := by
  rcases effect_cases ha s with ⟨n, -, -, he⟩ | ⟨n, d, -, -, -, he⟩ | ⟨n, d, -, -, -, he⟩ <;> rw [he]
  · rw [hostRead_eq]
    exact h
  · exact h
  · exact writeReg_frame_wf h d _

theorem effect_coherent {a : Access} (ha : a.refusal = none) {s : State} (h : s.status.Coherent) :
    (a.effect s).status.Coherent := by
  rcases effect_status ha s with he | ⟨-, he⟩ | ⟨-, d, -, he⟩ | ⟨-, d, -, he, -⟩ <;> rw [he]
  · exact h
  · exact h.hazard
  · exact h.clear d
  · exact s.status.issue_coherent

/-- A Host transaction keeps the invariant. -/
theorem State.Inv.host {s : State} (h : s.Inv) {a : Access} (ha : a.refusal = none) (hr : s.resetLine = false) :
    (a.effect s).Inv := by
  obtain ⟨hframe, hstatus, -⟩ := s.inv_iff.1 h
  exact State.inv_of_released (effect_frame_wf ha hframe) (effect_coherent ha hstatus) ((effect_keep ha s).1.trans hr)

theorem State.assertReset_inv (s : State) : s.assertReset.Inv :=
  (State.inv_iff _).2 ⟨Memory.nil_wf, Status.reset_coherent, fun _ => rfl⟩

theorem State.Inv.releaseReset {s : State} (h : s.Inv) : (s.withResetLine false).Inv := by
  obtain ⟨hframe, hstatus, -⟩ := s.inv_iff.1 h
  exact State.inv_of_released hframe hstatus rfl

/-- Settles O11: at reset FRAME is empty, STATUS is coherent and RESET is released. -/
theorem resetMeetsInvariant : Obligations.ResetMeetsInvariant := State.reset_inv

/-- Settles O12: each move of a step keeps the invariant. -/
theorem everyStepKeepsInvariant : Obligations.EveryStepKeepsInvariant := by
  intro s t h hstep
  rcases step_cases hstep with ⟨ts, u, -, hb, hrun, rfl⟩ | ⟨ts, -, -, rfl⟩ | ⟨a, ts, -, hr, ha, rfl⟩ | ⟨ts, -, rfl⟩ |
    ⟨ts, -, rfl⟩
  · exact (h.withTurns ts).engine hb hrun
  · exact h.withTurns ts
  · exact (h.withTurns ts).host ha hr
  · exact State.assertReset_inv _
  · exact (h.withTurns ts).releaseReset

end Sys2Proof.Machine
end

section
/-! SUPPORT. The statements about the moves of a run (70_reset_and_hazards.md, 60_exceptions.md): the Engine's step, an idle
turn, RESET, runs that never stop, and the independence of a pending command from the Host. -/

namespace Sys2Proof.Machine

/-! ## The Engine's step -/

theorem runPending_of_decode {s t : State} {i : Instr} (hd : decode s.pend = .ok i) (hx : exec i s = .next t) :
    runPending s = .next t := by
  simp [runPending, hd, hx]

/-- What the Engine's step with a command pending can answer. -/
theorem step_engine_inv {s t : State} {ts : List Turn} (hb : s.status.busy = true) (he : s.engineNext ts)
    (h : step s = .next t) : ∃ u, runPending (s.withTurns ts) = .next u ∧ t = u.complete := by
  obtain ⟨u, hu⟩ := runPending_next (s.withTurns ts)
  rw [step_engine_busy hb he hu] at h
  exact ⟨u, hu, (Host.Outcome.next.inj h).symm⟩

/-- The pending word moves neither RESET nor the list of moves. -/
theorem runPending_keep {s t : State} (h : runPending s = .next t) : t.resetLine = s.resetLine ∧ t.turns = s.turns := by
  rcases runPending_cases h with ⟨i, -, hexec⟩ | ⟨e, -, rfl⟩
  · obtain ⟨-, -, -, -, -, -, -, hline, hturns, -⟩ := exec_keep hexec
    exact ⟨hline, hturns⟩
  · exact ⟨rfl, rfl⟩

/-- Settles O4: the pending word is the decoded command's, and `State.complete` writes BUSY and DONE. -/
theorem stepRunsPendingCommand : Obligations.StepRunsPendingCommand :=
  fun _ _ _ _ hb he hd hx => step_engine_busy hb he (runPending_of_decode hd hx)

/-- A table word that decodes is a 32-bit word that decodes to the same command (R78). -/
theorem decode_of_decodeTableWord {nbits w : Nat} {i : Instr} (hn : nbits ≤ 32)
    (h : decodeTableWord nbits w = some i) : decode (BitVec.ofNat 32 (w % 2 ^ nbits)) = .ok i := by
  rw [decodeTableWord, tableWord, if_pos hn] at h
  cases hd : decode (BitVec.ofNat 32 (w % 2 ^ nbits)) with
  | ok j => simpa [hd, Except.toOption] using h
  | error e => simp [hd, Except.toOption] at h

/-- Settles O5: the placed word is pending and the Engine's turn is listed first. -/
theorem fetchWordRunsNext : Obligations.FetchWordRunsNext := by
  intro s t nbits w i hn hd hx
  exact step_engine_busy (s := s.withFetchWord nbits w) (ts := s.turns) rfl (Or.inl rfl)
    (runPending_of_decode (decode_of_decodeTableWord hn hd) hx)

/-- Settles O7: every word in PEND answers a next state, which is then completed. -/
theorem engineStepAlwaysCompletes : Obligations.EngineStepAlwaysCompletes := by
  intro s ts hb he
  obtain ⟨u, hu⟩ := runPending_next (s.withTurns ts)
  exact ⟨u.complete, step_engine_busy hb he hu, rfl, rfl, (runPending_keep hu).2⟩

/-- Settles O8: the Engine is enabled by BUSY alone. -/
theorem idleEngineTurnPasses : Obligations.IdleEngineTurnPasses := by
  intro s ts hb he
  rw [step_engineNext he, takeTurn, State.withTurns_status, hb]
  rfl

/-! ## RESET -/

/-- Settles O10: a listed move of RESET is `State.assertReset` or `State.withResetLine`. -/
theorem resetInputSteps : Obligations.ResetInputSteps := by
  refine fun s ts => ⟨fun hts => ?_, fun hts => ?_⟩ <;> rw [step_turn hts] <;> rfl

/-! ## Runs that never stop -/

/-- A move that has a meaning answers a next state, with RESET at the level the move leaves and the list as it was. -/
theorem takeTurn_of_meaningful {m : Turn} {s : State} (h : m.meaningful s.resetLine = true) :
    ∃ u, takeTurn m s = .next u ∧ u.resetLine = m.resetAfter s.resetLine ∧ u.turns = s.turns := by
  cases m with
  | engine =>
    obtain ⟨u, hu⟩ := runPending_next s
    have hkeep := runPending_keep hu
    cases hb : s.status.busy with
    | false => exact ⟨s, by simp [takeTurn, hb], rfl, rfl⟩
    | true => exact ⟨u.complete, by simp [takeTurn, hb, engineStep, hu, thenComplete], hkeep⟩
  | host a =>
    obtain ⟨hr, ha⟩ : s.resetLine = false ∧ a.refusal = none := by simpa [Turn.meaningful] using h
    exact ⟨a.effect s, by simp [takeTurn, hostStep, hr, ha], effect_keep ha s⟩
  | assertReset => exact ⟨_, rfl, rfl, rfl⟩
  | releaseReset => exact ⟨_, rfl, rfl, rfl⟩

/-- A safe state has a step, to a safe state. -/
theorem step_of_safe {s : State} (h : s.safe = true) : ∃ u, step s = .next u ∧ u.safe = true := by
  cases hts : s.turns with
  | nil =>
    obtain ⟨u, hu, -, hturns⟩ := takeTurn_of_meaningful (m := .engine) (s := s) rfl
    refine ⟨u, by simpa only [step, nextTurn, hts] using hu, ?_⟩
    rw [State.safe, hturns, hts]
    rfl
  | cons m ts =>
    obtain ⟨hm, hrest⟩ : m.meaningful s.resetLine = true ∧ safeTurns (m.resetAfter s.resetLine) ts = true := by
      simpa [State.safe, hts, safeTurns] using h
    obtain ⟨u, hu, hline, hturns⟩ := takeTurn_of_meaningful (m := m) (s := s.withTurns ts) hm
    exact ⟨u, (step_turn hts).trans hu, by rwa [State.safe, hline, hturns]⟩

/-- Settles O13, by induction on the number of steps: a safe state steps to a safe state. -/
theorem safeRunsNeverStop : Obligations.SafeRunsNeverStop := by
  intro s n
  induction n generalizing s with
  | zero => exact fun _ => ⟨s, rfl⟩
  | succ n ih =>
    intro h
    obtain ⟨u, hu, hsafe⟩ := step_of_safe h
    rw [run_succ n hu]
    exact ih u hsafe

/-- No Host transaction changes BUSY while a command is pending (R176). -/
theorem effect_busy {a : Access} (ha : a.refusal = none) {s : State} (hb : s.status.busy = true) :
    (a.effect s).status.busy = true :=
  (effect_keeps_busy_done ha s fun hidle => absurd (hb.symm.trans hidle) nofun).1.trans hb

/-- Settles O14, by induction on the Host's transactions: each leaves the command pending and the rest of the list. -/
theorem pendingCommandCompletes : Obligations.PendingCommandCompletes := by
  intro s as
  induction as generalizing s with
  | nil =>
    intro hb _ _ hts
    obtain ⟨t, hstep, hbusy, hdone, hturns⟩ := engineStepAlwaysCompletes s [] hb (Or.inl hts)
    exact ⟨t, run_succ 0 hstep, hbusy, hdone, hturns⟩
  | cons a as ih =>
    intro hb hr has hts
    obtain ⟨ha, has⟩ := List.forall_mem_cons.1 has
    rw [List.length_cons, run_succ _ (step_host hts hr ha)]
    obtain ⟨hline, hturns⟩ := effect_keep ha (s.withTurns (as.map Turn.host ++ [.engine]))
    exact ih _ (effect_busy ha hb) (hline.trans hr) has hturns

/-! ## The independence of a pending command from the Host -/

/-- The same state with other marks of Host transactions made while a command is pending: the words read, the values
drawn, and S_HAZ. -/
def State.withHostMarks (s : State) (rs : List Word) (n : Nat) (haz : Bool) : State :=
  { s with reads := rs, draws := n, status := { s.status with sHaz := haz } }

/-- A Host transaction while a command is pending leaves its marks and nothing else (R176, R177). -/
theorem effect_eq_withHostMarks {a : Access} (ha : a.refusal = none) {s : State} (hb : s.status.busy = true) :
    a.effect s = s.withHostMarks (a.effect s).reads (a.effect s).draws (a.effect s).status.sHaz := by
  rcases effect_cases ha s with ⟨n, -, -, he⟩ | ⟨n, d, -, -, -, he⟩ | ⟨n, d, -, -, hidle, -⟩
  · rw [he, hostRead_eq]
    rfl
  · rw [he]
    rfl
  · exact absurd (hb.symm.trans hidle) nofun

section Marks

variable (s : State) (rs : List Word) (n : Nat) (haz : Bool)

theorem qenc_withHostMarks (w : Width) (sc : Scale) (fmt : Fmt) :
    qenc w sc fmt (s.withHostMarks rs n haz) = (qenc w sc fmt s).withHostMarks rs n haz := by
  have hop : scalarOperand (s.withHostMarks rs n haz) fmt = scalarOperand s fmt := by cases fmt <;> rfl
  have hpol : (s.withHostMarks rs n haz).policy = s.policy := rfl
  unfold qenc
  rw [hop, hpol]
  generalize quantize (scalarOperand s fmt) fmt w sc s.policy = r
  obtain ⟨ev, _ | g⟩ := r <;> dsimp only <;> split <;> rfl

theorem fieldResult_withHostMarks (f : Field) : fieldResult (s.withHostMarks rs n haz) f = fieldResult s f :=
  fieldResult_congr (by cases f.slot <;> rfl) rfl

theorem frameEvents_withHostMarks : frameEvents (s.withHostMarks rs n haz) = frameEvents s := by
  simp only [frameEvents, fieldResult_withHostMarks]

theorem encodedFrame_withHostMarks : encodedFrame (s.withHostMarks rs n haz) = encodedFrame s := by
  have hfield : writeField (s.withHostMarks rs n haz) = writeField s := by
    funext m f
    simp only [writeField, fieldResult_withHostMarks]
  rw [encodedFrame, hfield]
  rfl

theorem Status.markAll_sHaz_update (st : Status) (evs : List Event) :
    ({ st with sHaz := haz } : Status).markAll evs = { st.markAll evs with sHaz := haz } := by
  induction evs generalizing st with
  | nil => rfl
  | cons ev evs ih => exact ih (st.mark ev)

theorem fenc_status_withHostMarks :
    (fenc (s.withHostMarks rs n haz)).status = { (fenc s).status with sHaz := haz } := by
  have hmark : (s.withHostMarks rs n haz).status.markAll (frameEvents s) =
      { s.status.markAll (frameEvents s) with sHaz := haz } := Status.markAll_sHaz_update haz _ _
  have hpol : (s.withHostMarks rs n haz).policy = s.policy := rfl
  rw [fenc_status, fenc_status, frameEvents_withHostMarks, hmark, hpol]
  split
  · split_ifs <;> rfl
  · rfl

theorem fenc_withHostMarks : fenc (s.withHostMarks rs n haz) = (fenc s).withHostMarks rs n haz := by
  obtain ⟨hframe, hflen⟩ := fenc_frame (s.withHostMarks rs n haz)
  rw [frameEvents_withHostMarks] at hframe hflen
  rw [encodedFrame_withHostMarks] at hframe
  rw [fenc_eq (s.withHostMarks rs n haz), hframe.trans (fenc_frame s).1.symm, hflen.trans (fenc_frame s).2.symm,
    fenc_status_withHostMarks]
  conv_rhs => rw [fenc_eq]
  rfl

theorem decodeFields_withHostMarks (fs : List Field) :
    fs.foldl decodeField (s.withHostMarks rs n haz) = (fs.foldl decodeField s).withHostMarks rs n haz := by
  have hfield (s : State) (f : Field) :
      decodeField (s.withHostMarks rs n haz) f = (decodeField s f).withHostMarks rs n haz := by
    unfold decodeField
    cases f.slot <;> rfl
  induction fs generalizing s with
  | nil => rfl
  | cons f fs ih => rw [List.foldl_cons, List.foldl_cons, hfield, ih]

theorem fdec_withHostMarks : fdec (s.withHostMarks rs n haz) = (fdec s).withHostMarks rs n haz := by
  have hlen : (s.withHostMarks rs n haz).flen = s.flen := rfl
  unfold fdec
  rw [hlen, decodeFields_withHostMarks]
  split <;> rfl

variable {s}

/-- A command does the same whatever marks the Host has left (R175). -/
theorem exec_withHostMarks {i : Instr} {t : State} (h : exec i s = .next t) :
    exec i (s.withHostMarks rs n haz) = .next (t.withHostMarks rs n haz) := by
  rcases instr_cases i with rfl | ⟨w, sc, fmt, rfl⟩ | ⟨w, sc, fmt, rfl⟩ | rfl | rfl
  · obtain rfl := Host.Outcome.next.inj h
    rfl
  · rw [exec_qenc] at h ⊢
    rw [qenc_withHostMarks, Host.Outcome.next.inj h]
  · rw [exec_qdec] at h ⊢
    rw [← Host.Outcome.next.inj h]
    rfl
  · rw [exec_fenc] at h ⊢
    rw [fenc_withHostMarks, Host.Outcome.next.inj h]
  · rw [exec_fdec] at h ⊢
    rw [fdec_withHostMarks, Host.Outcome.next.inj h]

theorem runPending_withHostMarks {t : State} (h : runPending s = .next t) :
    runPending (s.withHostMarks rs n haz) = .next (t.withHostMarks rs n haz) := by
  unfold runPending at h ⊢
  rw [show (s.withHostMarks rs n haz).pend = s.pend from rfl]
  split at h
  · exact exec_withHostMarks rs n haz h
  · rw [← Host.Outcome.next.inj h]
    rfl

end Marks

/-- A listed Host access that answers a next state has a meaning, and its effect. -/
theorem step_host_inv {s t : State} {a : Access} {ts : List Turn} (hts : s.turns = .host a :: ts)
    (h : step s = .next t) : a.refusal = none ∧ t = a.effect (s.withTurns ts) := by
  rw [step_turn hts] at h
  cases hr : s.resetLine <;> cases ha : a.refusal <;> simp [takeTurn, hostStep, hr, ha] at h
  exact ⟨rfl, h.symm⟩

/-- Settles O60: the transaction leaves only its marks, and the pending command does not look at them. -/
theorem hostCannotDisturbPendingCommand : Obligations.HostCannotDisturbPendingCommand := by
  intro s t u a ts hb hts hstep hengine
  obtain ⟨ha, ht⟩ := step_host_inv hts hstep
  have hmarks := effect_eq_withHostMarks ha (s := s.withTurns (.engine :: ts)) hb
  rw [← ht] at hmarks
  obtain ⟨v, hv, rfl⟩ := step_engine_inv (s := s.withTurns (.engine :: ts)) hb (Or.inl rfl) hengine
  have hrun := runPending_withHostMarks t.reads t.draws t.status.sHaz hv
  exact (congrArg step hmarks).trans
    (step_engine_busy (s := (s.withTurns (.engine :: ts)).withHostMarks t.reads t.draws t.status.sHaz) (ts := ts)
      hb (Or.inl rfl) hrun)

end Sys2Proof.Machine
end

section
/-! SUPPORT. The statements about errors and sticky flags (60_exceptions.md, 10_state.md): errors are precise, what clears a
sticky flag, and which moves change the report. -/

namespace Sys2Proof.Machine

/-! ## Errors are precise (R159) -/

/-- Every result register is the same in both states (R159). -/
abbrev State.sameResults (t s : State) : Prop :=
  t.qb = s.qb ∧ t.qout = s.qout ∧ t.frame = s.frame ∧ t.flen = s.flen ∧
    t.dout = s.dout ∧ t.fout = s.fout ∧ t.bout = s.bout ∧ t.cout = s.cout

/-- A command that newly reports an error is FDEC with FLEN, or QENC or FENC with a quantization error (R152). -/
theorem exec_reports {i : Instr} {s t : State} (h : exec i s = .next t) (hs : s.status.err = false)
    (ht : t.status.err = true) : (i = .fdec ∧ t.status.errcode = .flen) ∨
      ((i = .fenc ∨ ∃ w sc fmt, i = qencOf w sc fmt) ∧ t.status.errcode ≠ .ill ∧ t.status.errcode ≠ .flen) := by
  obtain ⟨st, hreport, -, -, herr, -⟩ := exec_status h
  rcases hreport with hst | ⟨code, field, hst, ⟨rfl, -, hi⟩ | ⟨hquant, -, -, hi⟩⟩
  · exact absurd ((hst ▸ ht).symm.trans (herr.trans hs)) nofun
  · exact Or.inl ⟨hi, by rw [hst]; rfl⟩
  · refine Or.inr ⟨hi, ?_⟩
    rw [hst, Status.raise_errcode]
    rcases hquant with rfl | rfl | rfl <;> exact ⟨nofun, nofun⟩

/-- QENC that newly reports an error under REJECT leaves the result registers as they were (R157). -/
theorem qenc_sameResults_of_reject {w : Width} {sc : Scale} {fmt : Fmt} {s : State} (hs : s.status.err = false)
    (ht : (qenc w sc fmt s).status.err = true) (hp : s.policy = .reject) : (qenc w sc fmt s).sameResults s := by
  have hqb : (qenc w sc fmt s).qb = s.qb := by
    have hsome := quantize_isSome (scalarOperand s fmt) fmt w sc s.policy
    rw [qenc_status] at ht
    rw [qenc_qb]
    generalize quantize (scalarOperand s fmt) fmt w sc s.policy = r at hsome ht ⊢
    obtain ⟨ev, _ | g⟩ := r
    · rfl
    · obtain rfl : ev = .none := by simpa [hp] using hsome
      simp [reported, hs] at ht
  rw [qenc_eq]
  exact ⟨hqb, rfl, rfl, rfl, rfl, rfl, rfl, rfl⟩

/-- FENC that newly reports an error under REJECT leaves the result registers as they were (R157). -/
theorem fenc_sameResults_of_reject {s : State} (hs : s.status.err = false) (ht : (fenc s).status.err = true)
    (hp : s.policy = .reject) : (fenc s).sameResults s := by
  have hevent : (firstEvent 0 (frameEvents s)).isSome = true := by
    by_contra hnone
    obtain ⟨-, -, herr, -⟩ := markAll_busy s.status (frameEvents s)
    rw [fenc_status, Option.not_isSome_iff_eq_none.1 hnone] at ht
    exact absurd (ht.symm.trans (herr.trans hs)) nofun
  obtain ⟨hframe, hflen⟩ := fenc_frame s
  rw [if_pos ⟨hp, hevent⟩] at hframe hflen
  rw [fenc_eq]
  exact ⟨rfl, rfl, hframe, hflen, rfl, rfl, rfl, rfl⟩

/-- FDEC that reports an error leaves the result registers as they were (R126). -/
theorem fdec_sameResults_of_err {s : State} (hs : s.status.err = false) (ht : (fdec s).status.err = true) :
    (fdec s).sameResults s := by
  by_cases hlen : s.flen = 42#8
  · rw [fdec_status, if_pos hlen, hs] at ht
    exact absurd ht nofun
  · rw [fdec_error hlen]
    exact ⟨rfl, rfl, rfl, rfl, rfl, rfl, rfl, rfl⟩

/-- A command that newly reports FLEN, or any error under REJECT, leaves the result registers as they were. -/
theorem exec_sameResults {i : Instr} {s t : State} (h : exec i s = .next t) (hs : s.status.err = false)
    (ht : t.status.err = true) (hcode : t.status.errcode = .ill ∨ t.status.errcode = .flen ∨ s.policy = .reject) :
    t.sameResults s := by
  rcases exec_reports h hs ht with ⟨rfl, -⟩ | ⟨hi, hill, hflen⟩
  · obtain rfl := Host.Outcome.next.inj h
    exact fdec_sameResults_of_err hs ht
  · have hp : s.policy = .reject := (hcode.resolve_left hill).resolve_left hflen
    rcases hi with rfl | ⟨w, sc, fmt, rfl⟩
    · obtain rfl := Host.Outcome.next.inj h
      exact fenc_sameResults_of_reject hs ht hp
    · rw [exec_qenc] at h
      obtain rfl := Host.Outcome.next.inj h
      exact qenc_sameResults_of_reject hs ht hp

/-- Settles O56: an illegal word writes STATUS alone, and a legal command is precise by `exec_sameResults`. -/
theorem errorsArePrecise : Obligations.ErrorsArePrecise := by
  intro s t ts hinv hb he hstep herr hcode
  obtain ⟨u, hrun, rfl⟩ := step_engine_inv hb he hstep
  obtain ⟨-, hs, -⟩ := hinv.pending hb
  rcases runPending_cases hrun with ⟨i, -, hexec⟩ | ⟨e, -, rfl⟩
  · have hsame : u.sameResults (s.withTurns ts) := exec_sameResults hexec hs herr hcode
    exact hsame
  · exact ⟨rfl, rfl, rfl, rfl, rfl, rfl, rfl, rfl⟩

/-! ## Sticky flags (R27) -/

/-- Every sticky flag set in `st` is set in `st'`. -/
def Status.keepsSticky (st st' : Status) : Prop :=
  ∀ n, 16 ≤ n → n ≤ 21 → st.toWord.getLsbD n = true → st'.toWord.getLsbD n = true

theorem Status.keepsSticky_of_flags {st st' : Status} (hovf : st.sOvf = true → st'.sOvf = true)
    (hsgn : st.sSgn = true → st'.sSgn = true) (hinv : st.sInv = true → st'.sInv = true)
    (hflen : st.sFlen = true → st'.sFlen = true) (hill : st.sIll = true → st'.sIll = true)
    (hhaz : st.sHaz = true → st'.sHaz = true) : st.keepsSticky st' := by
  intro n h1 h2
  rw [Status.toWord_getLsbD, Status.toWord_getLsbD]
  interval_cases n <;> simpa

theorem Status.keepsSticky_raise (st : Status) (code : ErrCode) (field : BitVec 5) :
    st.keepsSticky (st.raise code field) :=
  Status.keepsSticky_of_flags id id id (by simp +contextual) (by simp +contextual) id

theorem Status.keepsSticky_hazard (st : Status) : st.keepsSticky st.hazard :=
  Status.keepsSticky_of_flags id id id id id (fun _ => rfl)

theorem Status.keepsSticky_issue (st : Status) : st.keepsSticky st.issue :=
  Status.keepsSticky_of_flags id id id id id id

theorem Status.keepsSticky_complete (st : Status) : st.keepsSticky st.complete :=
  Status.keepsSticky_of_flags id id id id id id

theorem Status.keepsSticky.trans {st st' st'' : Status} (h : st.keepsSticky st') (h' : st'.keepsSticky st'') :
    st.keepsSticky st'' :=
  fun n h1 h2 hn => h' n h1 h2 (h n h1 h2 hn)

/-- No command clears a sticky flag. -/
theorem exec_keepsSticky {i : Instr} {s t : State} (h : exec i s = .next t) : s.status.keepsSticky t.status := by
  obtain ⟨st, hreport, -, -, -, -, -, hflen, hill, hhaz, hovf, hsgn, hinv⟩ := exec_status h
  have hst : s.status.keepsSticky st := Status.keepsSticky_of_flags hovf hsgn hinv hflen.trans hill.trans hhaz.trans
  rcases hreport with ht | ⟨code, field, ht, -⟩ <;> rw [ht]
  · exact hst
  · exact hst.trans (st.keepsSticky_raise code field)

theorem runPending_keepsSticky {s t : State} (h : runPending s = .next t) : s.status.keepsSticky t.status := by
  rcases runPending_cases h with ⟨i, -, hexec⟩ | ⟨e, -, rfl⟩
  · exact exec_keepsSticky hexec
  · exact Status.keepsSticky_raise _ _ _

/-- A write to STATUS clears only the flags written as 1 (R57). -/
theorem Status.getLsbD_of_clear {st : Status} {d : Word} {n : Nat} (hset : st.toWord.getLsbD n = true)
    (hclear : (st.clear d).toWord.getLsbD n = false) : d.getLsbD n = true := by
  have hn : n < 32 := BitVec.lt_of_getLsbD hset
  rw [Status.clear_toWord, BitVec.getLsbD_and, BitVec.getLsbD_not, BitVec.getLsbD_and, hset] at hclear
  simp only [hn, decide_true, Bool.true_and, Bool.not_eq_false', Bool.and_eq_true] at hclear
  exact hclear.1

/-- Settles O57: of the moves, only RESET and an accepted write to STATUS do not keep the sticky flags. -/
theorem stickyBitsClearedOnlyByHost : Obligations.StickyBitsClearedOnlyByHost := by
  intro s t n h1 h2 hstep hset hclear
  have hlost : ¬ s.status.keepsSticky t.status := fun hkeep =>
    Bool.false_ne_true (hclear.symm.trans (hkeep n h1 h2 hset))
  rcases step_cases hstep with ⟨ts, u, -, -, hrun, rfl⟩ | ⟨ts, -, -, rfl⟩ | ⟨a, ts, hts, -, ha, rfl⟩ | ⟨ts, hts, -⟩ |
    ⟨ts, -, rfl⟩
  · exact absurd ((runPending_keepsSticky hrun).trans u.status.keepsSticky_complete) hlost
  · exact absurd (fun _ _ _ hn => hn) hlost
  · rcases effect_status ha (s.withTurns ts) with he | ⟨-, he⟩ | ⟨hb, d, hd, he⟩ | ⟨-, d, -, he, -⟩ <;> rw [he] at hlost hclear
    · exact absurd (fun _ _ _ hn => hn) hlost
    · exact absurd s.status.keepsSticky_hazard hlost
    · exact Or.inr ⟨hb, d, ts, by rw [hts, hd]; rfl, Status.getLsbD_of_clear hset hclear⟩
    · exact absurd s.status.keepsSticky_issue hlost
  · exact Or.inl ⟨ts, hts⟩
  · exact absurd (fun _ _ _ hn => hn) hlost

/-! ## The report of the last command (R26) -/

/-- Settles O59: a Host access keeps the report or issues a command, and the invariant holds after the Engine's step. -/
theorem lastCommandFields : Obligations.LastCommandFields := by
  refine ⟨fun s t a ts hts hstep => ?_, fun s t ts hinv _ _ hstep herr => ?_⟩
  · obtain ⟨ha, rfl⟩ := step_host_inv hts hstep
    rcases effect_status ha (s.withTurns ts) with he | ⟨-, he⟩ | ⟨-, d, -, he⟩ | ⟨hb, d, -, he, -⟩ <;> rw [he]
    · exact Or.inl ⟨rfl, rfl, rfl⟩
    · exact Or.inl ⟨rfl, rfl, rfl⟩
    · exact Or.inl ⟨rfl, rfl, rfl⟩
    · exact Or.inr ⟨hb, rfl, rfl, rfl, rfl⟩
  · have hinv' := everyStepKeepsInvariant s t hinv hstep
    have hcode := hinv'.errCode.1 herr
    exact ⟨hcode, hinv'.errField.resolve_right (by simp [hcode])⟩

end Sys2Proof.Machine
end

section
/-! SUPPORT. The statements about the register window (20_memory.md, 10_state.md): the layout of STATUS, what a read returns,
reserved offsets, and the register map. -/

namespace Sys2Proof.Machine

/-! ## STATUS (R23, R151) -/

/-- The fields of several bits: ERRCODE, EFIELD, and the two reserved ranges. -/
theorem Status.toWord_fields (st : Status) :
    st.toWord.extractLsb' 4 4 = st.errcode.bits ∧ st.toWord.extractLsb' 8 5 = st.efield ∧
      st.toWord.extractLsb' 13 3 = 0#3 ∧ st.toWord.extractLsb' 22 10 = 0#10 := by
  refine ⟨?_, ?_, ?_, ?_⟩
  all_goals
    apply BitVec.eq_of_getLsbD_eq
    intro i hi
    rw [BitVec.getLsbD_extractLsb', Status.toWord_getLsbD]
    interval_cases i <;> simp

/-- Settles O18: the flags bit by bit from `Status.toWord_getLsbD`, and the fields of several bits. -/
theorem statusWordLayout : Obligations.StatusWordLayout := by
  refine ⟨fun st => ?_, by decide⟩
  obtain ⟨herrcode, hefield, hreserved, hreserved'⟩ := st.toWord_fields
  simp only [herrcode, hefield, hreserved, hreserved', Status.toWord_getLsbD]
  simp

/-! ## What a read returns (R54, R58, R177) -/

/-- A named register is found at its own offset. -/
theorem readReg_offset (s : State) (r : Reg) : readReg s (regAt r.offset) = readReg s r := by rw [regAt_offset]

/-- A listed HostRead of a register that no command writes returns what it holds. -/
theorem step_read_specified {s : State} {off : Nat} {ts : List Turn} (hr : s.resetLine = false) (hw : windowOffset off)
    (hu : (s.status.busy && (regAt off).unspecifiedWhileBusy) = false) (hts : s.turns = Turn.read off :: ts) :
    step s = .next { s with turns := ts, reads := readReg s (regAt off) :: s.reads } := by
  rw [step_read hts hr hw, hostRead, State.withTurns_status, hu, readReg_withTurns]
  rfl

/-- A listed HostRead of a result register while a command is pending returns the next free value. -/
theorem step_read_unspecified {s : State} {off : Nat} {ts : List Turn} (hr : s.resetLine = false)
    (hw : windowOffset off) (hu : (s.status.busy && (regAt off).unspecifiedWhileBusy) = true)
    (hts : s.turns = Turn.read off :: ts) :
    step s = .next { s with turns := ts, reads := Config.freeRead s.draws :: s.reads, draws := s.draws + 1 } := by
  rw [step_read hts hr hw, hostRead, State.withTurns_status, hu]
  rfl

/-- The reserved offsets of R53's table. -/
theorem regAt_reserved {off : Nat} (h4 : off % 4 = 0) (hres : (0x024 ≤ off ∧ off ≤ 0x03C) ∨ (0x0AC ≤ off ∧ off ≤ 0x0FC) ∨
    (0x12C ≤ off ∧ off ≤ 0x13C) ∨ (0x1AC ≤ off ∧ off ≤ 0x1FC)) : regAt off = .reserved := by
  have word : ∀ k : Fin 128, (0x024 ≤ 4 * k.val ∧ 4 * k.val ≤ 0x03C) ∨ (0x0AC ≤ 4 * k.val ∧ 4 * k.val ≤ 0x0FC) ∨
      (0x12C ≤ 4 * k.val ∧ 4 * k.val ≤ 0x13C) ∨ (0x1AC ≤ 4 * k.val ∧ 4 * k.val ≤ 0x1FC) →
      regAt (4 * k) = .reserved := by decide
  obtain ⟨k, rfl⟩ : ∃ k, off = 4 * k := ⟨off / 4, by omega⟩
  exact word ⟨k, by omega⟩ hres

/-- Settles O21: the reserved offsets hold `Reg.reserved`, which reads 0 and ignores writes. -/
theorem reservedOffsetsReadZero : Obligations.ReservedOffsetsReadZero := by
  intro s off d ts hr h4 hres
  have hreg := regAt_reserved h4 hres
  have hw : windowOffset off := ⟨h4, by omega⟩
  refine ⟨fun hts => ?_, fun hts hb => step_write_ignored hr hb hw (by rw [hreg]; rfl) hts⟩
  rw [step_read_specified hr hw (by rw [hreg]; exact Bool.and_false _) hts, hreg]
  rfl

/-- The offsets of the registers that a command may write or read as a byte group (R177). -/
theorem unspecifiedWhileBusy_iff {off : Nat} (hw : windowOffset off) : (regAt off).unspecifiedWhileBusy = true ↔
    off = 0x00C ∨ (0x018 ≤ off ∧ off ≤ 0x020) ∨ (0x100 ≤ off ∧ off ≤ 0x128) ∨ (0x140 ≤ off ∧ off ≤ 0x1A8) := by
  have word : ∀ k : Fin 128, (regAt (4 * k)).unspecifiedWhileBusy = true ↔ 4 * k.val = 0x00C ∨
      (0x018 ≤ 4 * k.val ∧ 4 * k.val ≤ 0x020) ∨ (0x100 ≤ 4 * k.val ∧ 4 * k.val ≤ 0x128) ∨
      (0x140 ≤ 4 * k.val ∧ 4 * k.val ≤ 0x1A8) := by decide
  obtain ⟨k, rfl⟩ : ∃ k, off = 4 * k := ⟨off / 4, by omega⟩
  exact word ⟨k, by omega⟩

/-- Settles O22: the listed offsets are those that are unspecified while BUSY = 1. -/
theorem hostReadReturns : Obligations.HostReadReturns := by
  intro s off ts hr hw hts
  rw [← unspecifiedWhileBusy_iff hw, ← Bool.and_eq_true]
  exact ⟨fun hu => step_read_unspecified hr hw hu hts,
    fun hu => step_read_specified hr hw (Bool.eq_false_of_not_eq_true hu) hts⟩

/-- Settles O23: CMD is no result register, and reads 0. -/
theorem commandRegisterReadsZero : Obligations.CommandRegisterReadsZero :=
  fun _ _ hr hts => step_read_specified hr (by decide) (Bool.and_false _) hts

/-- Settles O28: the level of RESET is the first check of a Host transaction. -/
theorem accessRefusedDuringReset : Obligations.AccessRefusedDuringReset := by
  intro s a ts hr hts
  rw [step_turn hts, takeTurn, hostStep, State.withTurns_resetLine, hr]
  rfl

/-! ## The register map (R53, R62) -/

/-- The bits a read-write data register keeps of a word written to it; none for the other registers. -/
def Reg.keptBits : Reg → Option Word
  | .qinLo | .qinHi | .qb | .dinLo _ | .dinHi _ | .fin _ | .cin => some 0xFFFFFFFF#32
  | .flen | .bin _ => some 0x000000FF#32
  | .framew m => some (if m.val = 10 then 0xFFFF0000#32 else 0xFFFFFFFF#32)
  | _ => none

theorem and_full_word (d : Word) : d &&& 0xFFFFFFFF#32 = d := BitVec.and_allOnes

/-- FRAMEW[m] reads back what it keeps of a written word (R59). -/
theorem readFramew_writeFramew (fr : Memory) (m : Fin 11) (d : Word) :
    readFramew (writeFramew fr m d) m = d &&& (if m.val = 10 then 0xFFFF0000#32 else 0xFFFFFFFF#32) := by
  have byte {k : Nat} (hk : k ≤ 3) (hlen : 4 * m.val + k < 42) := read_writeFramew_inside fr m d hk hlen
  have h0 := byte (k := 0) (by omega) (by omega)
  have h1 := byte (k := 1) (by omega) (by omega)
  unfold readFramew
  split_ifs with hm
  · rw [hm] at h0 h1
    rw [h0, h1]
    exact append_upper_bytes d
  · rw [Nat.add_zero] at h0
    rw [h0, h1, byte (k := 2) (by omega) (by omega), byte (k := 3) (by omega) (by omega), and_full_word]
    exact append_bytes d

/-- A read-write data register reads back the bits it keeps of what is written. -/
theorem readReg_writeReg_same {r : Reg} {mask : Word} (h : r.keptBits = some mask) (s : State) (d : Word) :
    readReg (writeReg s d r) r = d &&& mask := by
  cases r
  case framew m =>
    obtain rfl := Option.some.inj h
    exact readFramew_writeFramew s.frame m d
  case flen =>
    obtain rfl := Option.some.inj h
    exact setWidth_low_byte d
  case bin j =>
    obtain rfl := Option.some.inj h
    simpa [readReg, writeReg] using setWidth_low_byte d
  case qinLo | qinHi | qb | dinLo | dinHi | fin | cin =>
    obtain rfl := Option.some.inj h
    simp [readReg, writeReg, and_full_word]
  all_goals exact absurd h nofun

/-- The offsets of the read-write data registers, by the bits they keep. -/
theorem keptBits_regAt {off : Nat} (hw : windowOffset off) :
    (off = 0x010 ∨ off = 0x014 ∨ off = 0x018 ∨ (0x040 ≤ off ∧ off < 0x098) ∨ off = 0x0A8 ∨
      (0x100 ≤ off ∧ off < 0x128) → (regAt off).keptBits = some 0xFFFFFFFF#32) ∧
    (off = 0x00C ∨ (0x098 ≤ off ∧ off < 0x0A8) → (regAt off).keptBits = some 0x000000FF#32) := by
  have word : ∀ k : Fin 128,
      (4 * k.val = 0x010 ∨ 4 * k.val = 0x014 ∨ 4 * k.val = 0x018 ∨ (0x040 ≤ 4 * k.val ∧ 4 * k.val < 0x098) ∨
        4 * k.val = 0x0A8 ∨ (0x100 ≤ 4 * k.val ∧ 4 * k.val < 0x128) →
          (regAt (4 * k)).keptBits = some 0xFFFFFFFF#32) ∧
      (4 * k.val = 0x00C ∨ (0x098 ≤ 4 * k.val ∧ 4 * k.val < 0x0A8) →
        (regAt (4 * k)).keptBits = some 0x000000FF#32) := by decide
  obtain ⟨k, rfl⟩ : ∃ k, off = 4 * k := ⟨off / 4, by omega⟩
  exact word ⟨k, by omega⟩

/-- An accepted write to a word of the window other than CMD leaves what every other word reads as. -/
theorem readReg_writeReg_regAt_other {off off' : Nat} (hw : windowOffset off) (hw' : windowOffset off')
    (hne : off' ≠ off) (hc : off ≠ 0x008) (s : State) (d : Word) :
    readReg (writeReg s d (regAt off)) (regAt off') = readReg s (regAt off') := by
  have hcmd : regAt off ≠ .cmd := fun h => hc (by rw [← offset_regAt hw (by rw [h]; nofun), h]; rfl)
  by_cases hres : regAt off = .reserved
  · rw [hres]
    rfl
  · exact readReg_writeReg_other s d _ _ (fun h => hne (regAt_inj hw hw' hres h).symm) hcmd

/-- Settles O26: each register is read and written at its own offset, and no two words share a named register. -/
theorem hostWriteTouchesOneWord : Obligations.HostWriteTouchesOneWord := by
  refine ⟨fun s => ?_, fun s off d ts hr hb hts => ?_, fun s t off d ts hb hw hc hts hstep => ?_⟩
  · have at' := readReg_offset s
    exact ⟨at' .ctrl, at' .status, at' .flen, at' .qb, fun j => at' (.fin j), fun j => at' (.bin j), at' .cin,
      fun j => at' (.fout j), fun j => at' (.bout j), at' .cout⟩
  · have write (r : Reg) := step_writeReg r hr hb hts
    exact ⟨write .flen, write .qinLo, write .qinHi, write .qb, fun i => write (.dinLo i), fun i => write (.dinHi i),
      fun j => write (.fin j), fun j => write (.bin j), write .cin⟩
  · obtain ⟨-, -, ht⟩ := step_write_inv hts hstep
    replace ht : t = writeReg (s.withTurns ts) d (regAt off) := by simpa [hostWrite, hb] using ht
    have back {mask : Word} (hk : (regAt off).keptBits = some mask) : readReg t (regAt off) = d &&& mask := by
      rw [ht, readReg_writeReg_same hk]
    obtain ⟨hword, hbyte⟩ := keptBits_regAt hw
    refine ⟨fun off' hw' hne => ?_, fun h => ?_, fun h => back (hbyte h), ?_⟩
    · rw [ht, readReg_writeReg_regAt_other hw hw' hne hc, readReg_withTurns]
    · rw [back (hword h), and_full_word]
    · rintro rfl
      exact back rfl

end Sys2Proof.Machine
end

section
/-! SUPPORT. The statements about floating point and the two directions of the Scalar Quantizer (00_scope.md R12,
40_scalar_quantizer.md): rounding, the value of a pattern, the scaled product, and Dequantize. -/

namespace Sys2Proof

/-! ## Rounding (R12) -/

/-- The rounded quotient at `roundMag`'s shift is a significand: it fills its bits, unless the result is subnormal, and
at most carries out of them. -/
theorem Fmt.roundMag_significand (fmt : Fmt) (n d : Nat) : ∃ sh,
    fmt.roundMag n d = min (sh * 2 ^ fmt.fracBits + roundHalfEven n (d * 2 ^ sh)) fmt.infMag ∧
    (sh = 0 ∨ 2 ^ fmt.fracBits ≤ n / (d * 2 ^ sh)) ∧ roundHalfEven n (d * 2 ^ sh) ≤ 2 ^ (fmt.fracBits + 1) := by
  obtain ⟨sh, hround, hfull, hlt⟩ := fmt.roundMag_shift n d
  exact ⟨sh, hround, hfull, (roundHalfEven_le_succ _ _).trans hlt⟩

/-- Below a normal significand's range every value is further from `n / d` than the least normal one at that shift. -/
theorem natAbs_sub_lt_of_lt_normal {n D P u r : Nat} (hfull : P * D ≤ n) (hu : u < P * D)
    (hnear : ((n : Int) - (r * D : Nat)).natAbs ≤ ((n : Int) - (P * D : Nat)).natAbs) :
    ((n : Int) - (r * D : Nat)).natAbs < ((n : Int) - u).natAbs := by
  omega

/-- The rounded quotient at `roundMag`'s shift is a nearest value of the format, and where another is as near it is even. -/
theorem Fmt.roundHalfEven_nearest_units (fmt : Fmt) {n d sh : Nat} (hd : 0 < d)
    (hfull : sh = 0 ∨ 2 ^ fmt.fracBits ≤ n / (d * 2 ^ sh)) (g : Nat) :
    ((n : Int) - (roundHalfEven n (d * 2 ^ sh) * 2 ^ sh * d : Nat)).natAbs ≤ ((n : Int) - (fmt.units g * d : Nat)).natAbs ∧
    (((n : Int) - (roundHalfEven n (d * 2 ^ sh) * 2 ^ sh * d : Nat)).natAbs =
        ((n : Int) - (fmt.units g * d : Nat)).natAbs →
      fmt.units g ≠ roundHalfEven n (d * 2 ^ sh) * 2 ^ sh → roundHalfEven n (d * 2 ^ sh) % 2 = 0) := by
  have hD : 0 < d * 2 ^ sh := Nat.mul_pos hd (Nat.two_pow_pos _)
  have hmul (m : Nat) : m * 2 ^ sh * d = m * (d * 2 ^ sh) := by ring
  have hnear (m : Nat) := roundHalfEven_nearest n hD m
  simp only [← Nat.cast_mul] at hnear
  have hcase : (∃ m, fmt.units g = m * 2 ^ sh) ∨
      (2 ^ fmt.fracBits ≤ n / (d * 2 ^ sh) ∧ fmt.units g < 2 ^ fmt.fracBits * 2 ^ sh) := by
    rcases hfull with rfl | hfull
    · exact Or.inl ⟨fmt.units g, by simp⟩
    · exact (fmt.units_small_or_multiple g sh).imp id fun hsmall => ⟨hfull, hsmall⟩
  rcases hcase with ⟨m, hm⟩ | ⟨hfull, hsmall⟩
  · rw [hm, hmul, hmul]
    obtain ⟨hle, htie⟩ := hnear m
    exact ⟨hle, fun heq hne => htie heq fun h => hne (by rw [h])⟩
  · have hfull' := (Nat.le_div_iff_mul_le hD).1 hfull
    have hsmall' : fmt.units g * d < 2 ^ fmt.fracBits * (d * 2 ^ sh) := by
      rw [← hmul]
      exact Nat.mul_lt_mul_of_pos_right hsmall hd
    have hlt := natAbs_sub_lt_of_lt_normal hfull' hsmall' (hnear _).1
    rw [← hmul] at hlt
    exact ⟨hlt.le, fun heq => absurd heq hlt.ne⟩

/-- The count of units of infinity's pattern, by its exponent field (R12). -/
theorem Fmt.units_infMag {fmt : Fmt} {e : Nat} (hinf : fmt.infMag = (e + 1) * 2 ^ fmt.fracBits) :
    fmt.units fmt.infMag = 2 ^ fmt.fracBits * 2 ^ e := by
  rw [hinf, Nat.add_one_mul]
  exact fmt.units_significand (Or.inr le_rfl) (Nat.pow_le_pow_right (by decide) (Nat.le_succ _))

/-- Where the rounded pattern is past infinity's, the quotient is at least infinity's count of units. -/
theorem Fmt.units_infMag_mul_le (fmt : Fmt) {n d sh : Nat} (hd : 0 < d)
    (hfull : sh = 0 ∨ 2 ^ fmt.fracBits ≤ n / (d * 2 ^ sh))
    (hr : roundHalfEven n (d * 2 ^ sh) ≤ 2 ^ (fmt.fracBits + 1))
    (hover : fmt.infMag < sh * 2 ^ fmt.fracBits + roundHalfEven n (d * 2 ^ sh)) :
    fmt.units fmt.infMag * d ≤ n := by
  obtain ⟨s0, hinf⟩ := fmt.infMag_eq
  have hP : 0 < 2 ^ fmt.fracBits := Nat.two_pow_pos _
  have hunits := Fmt.units_infMag hinf
  have hsucc := roundHalfEven_le_succ n (d * 2 ^ sh)
  rw [hinf] at hover
  rw [Nat.pow_succ] at hr
  generalize 2 ^ fmt.fracBits = P at *
  have hsh : s0 ≤ sh := by
    by_contra hlt
    have hmul : (sh + 1) * P ≤ s0 * P := Nat.mul_le_mul_right P (Nat.lt_of_not_le hlt)
    rw [Nat.add_mul] at hmul hover
    omega
  have hquot : P ≤ n / (d * 2 ^ sh) := by
    rcases hfull with rfl | hfull
    · obtain rfl : s0 = 0 := Nat.le_zero.1 hsh
      omega
    · exact hfull
  calc fmt.units fmt.infMag * d = P * (d * 2 ^ s0) := by rw [hunits]; ring
    _ ≤ P * (d * 2 ^ sh) :=
      Nat.mul_le_mul_left _ (Nat.mul_le_mul_left _ (Nat.pow_le_pow_right (by decide) hsh))
    _ ≤ n := (Nat.le_div_iff_mul_le (Nat.mul_pos hd (Nat.two_pow_pos _))).1 hquot

theorem Fmt.two_pow_fracBits_even (fmt : Fmt) : 2 ^ fmt.fracBits % 2 = 0 := by cases fmt <;> rfl

/-- Rounding is to a nearest value, and to the even one of two (R12). -/
theorem Fmt.roundMag_nearest (fmt : Fmt) (n : Nat) {d g : Nat} (hd : 0 < d) (hg : g ≤ fmt.infMag) :
    ((n : Int) - (fmt.units (fmt.roundMag n d) * d : Nat)).natAbs ≤ ((n : Int) - (fmt.units g * d : Nat)).natAbs ∧
    (((n : Int) - (fmt.units (fmt.roundMag n d) * d : Nat)).natAbs = ((n : Int) - (fmt.units g * d : Nat)).natAbs →
      g ≠ fmt.roundMag n d → fmt.roundMag n d % 2 = 0) := by
  obtain ⟨sh, hround, hfull, hr⟩ := fmt.roundMag_significand n d
  rcases Nat.lt_or_ge fmt.infMag (sh * 2 ^ fmt.fracBits + roundHalfEven n (d * 2 ^ sh)) with hover | hle
  · rw [min_eq_right hover.le] at hround
    rw [hround]
    have hmag := fmt.units_infMag_mul_le hd hfull hr hover
    rcases hg.eq_or_lt with rfl | hlt
    · exact ⟨le_rfl, fun _ hne => absurd rfl hne⟩
    · have hunits := Nat.mul_lt_mul_of_pos_right (fmt.units_strictMono hlt) hd
      constructor <;> omega
  · rw [min_eq_left hle] at hround
    have hunits := fmt.units_significand (hfull.imp id fun h => h.trans (le_roundHalfEven _ _)) hr
    obtain ⟨hnear, htie⟩ := fmt.roundHalfEven_nearest_units hd hfull g
    rw [← hunits, ← hround] at hnear htie
    refine ⟨hnear, fun heq hne => ?_⟩
    have heven := htie heq fun h => hne (fmt.units_strictMono.injective h)
    rw [hround, Nat.add_mod, Nat.mul_mod, fmt.two_pow_fracBits_even, heven, Nat.mul_zero]

/-- Settles O29: the pattern is the rounded significand's, or infinity's where that is past it. -/
theorem roundingIsNearestTiesToEven : Obligations.RoundingIsNearestTiesToEven := by
  intro fmt n d g hd hg
  have hnear := fmt.roundMag_nearest n hd hg
  push_cast at hnear
  exact ⟨fmt.roundMag_le n d, hnear⟩

/-- A value of the format rounds to its own pattern: nothing else is as near. -/
theorem Fmt.roundMag_units (fmt : Fmt) {g : Nat} (hg : g ≤ fmt.infMag) : fmt.roundMag (fmt.units g) 1 = g := by
  have hnear := (fmt.roundMag_nearest (fmt.units g) Nat.one_pos hg).1
  exact fmt.units_strictMono.injective (by omega)

theorem Fmt.units_zero (fmt : Fmt) : fmt.units 0 = 0 := by simp [Fmt.units]

theorem Fmt.roundMag_zero (fmt : Fmt) (d : Nat) : fmt.roundMag 0 d = 0 := by simp [Fmt.roundMag, roundHalfEven]

/-! ## The value of a pattern (R12, G1, G2) -/

/-- The value of a magnitude with exponent field `e` and fraction `f`, in a format whose last exponent field is `last`. -/
theorem Fmt.signedVal_fields {fmt : Fmt} {last e f : Nat} (hinf : fmt.infMag = last * 2 ^ fmt.fracBits) (hlast : 0 < last)
    (he : e ≤ last) (hf : f < 2 ^ fmt.fracBits) (neg : Bool) :
    (e = last ∧ f ≠ 0 → fmt.signedVal neg (e * 2 ^ fmt.fracBits + f) = .nan) ∧
    (e = last ∧ f = 0 → fmt.signedVal neg (e * 2 ^ fmt.fracBits + f) = .inf neg) ∧
    (e = 0 → fmt.signedVal neg (e * 2 ^ fmt.fracBits + f) = .finite neg f) ∧
    (0 < e ∧ e < last → fmt.signedVal neg (e * 2 ^ fmt.fracBits + f) =
      .finite neg ((2 ^ fmt.fracBits + f) * 2 ^ (e - 1))) := by
  have hfinite (h : e < last) : fmt.signedVal neg (e * 2 ^ fmt.fracBits + f) =
      .finite neg (fmt.units (e * 2 ^ fmt.fracBits + f)) := by
    have hlt : e * 2 ^ fmt.fracBits + f < fmt.infMag := by
      have hmul := Nat.mul_le_mul_right (2 ^ fmt.fracBits) h
      rw [Nat.succ_mul] at hmul
      omega
    rw [Fmt.signedVal, if_neg hlt.le.not_gt, if_neg hlt.ne]
  refine ⟨?_, ?_, ?_, ?_⟩
  · rintro ⟨rfl, h0⟩
    exact if_pos (by omega)
  · rintro ⟨rfl, rfl⟩
    rw [Fmt.signedVal, if_neg (by omega), if_pos (by omega)]
  · rintro rfl
    rw [hfinite hlast, Nat.zero_mul, Nat.zero_add, Fmt.units_eq, if_pos (Nat.div_eq_of_lt hf)]
  · rintro ⟨h0, hlt⟩
    obtain ⟨k, rfl⟩ := Nat.exists_eq_add_one.2 h0
    have hsig := fmt.units_significand (sh := k) (r := 2 ^ fmt.fracBits + f) (Or.inr (Nat.le_add_right _ _))
      (by rw [Nat.pow_succ]; omega)
    rw [hfinite hlt, Nat.add_one_mul, Nat.add_assoc, hsig, Nat.add_sub_cancel]

/-- Every pattern below infinity's is a positive finite value. -/
theorem Fmt.val_of_lt_infMag (fmt : Fmt) {g : Nat} (hg : g < fmt.infMag) : fmt.val g = .finite false (fmt.units g) := by
  have hlt := hg.trans fmt.infMag_lt
  rw [Fmt.val, Nat.testBit_lt_two_pow hlt, Nat.mod_eq_of_lt hlt, Fmt.signedVal, if_neg hg.le.not_gt, if_neg hg.ne]

/-- A binary64 pattern is a sign, an exponent field of 11 bits and a fraction of 52 (G1). -/
theorem f64_val_eq (b : BitVec 64) : Fmt.f64.val b.toNat =
    Fmt.f64.signedVal (b.getLsbD 63) ((b.extractLsb' 52 11).toNat * 2 ^ 52 + (b.extractLsb' 0 52).toNat) := by
  have hmag : b.toNat % 2 ^ 63 = (b.extractLsb' 52 11).toNat * 2 ^ 52 + (b.extractLsb' 0 52).toNat := by
    simp only [BitVec.extractLsb'_toNat, Nat.shiftRight_eq_div_pow]
    omega
  rw [← hmag]
  rfl

/-- A binary32 pattern is a sign, an exponent field of 8 bits and a fraction of 23 (G2). -/
theorem f32_val_eq (b : BitVec 32) : Fmt.f32.val b.toNat =
    Fmt.f32.signedVal (b.getLsbD 31) ((b.extractLsb' 23 8).toNat * 2 ^ 23 + (b.extractLsb' 0 23).toNat) := by
  have hmag : b.toNat % 2 ^ 31 = (b.extractLsb' 23 8).toNat * 2 ^ 23 + (b.extractLsb' 0 23).toNat := by
    simp only [BitVec.extractLsb'_toNat, Nat.shiftRight_eq_div_pow]
    omega
  rw [← hmag]
  rfl

/-- Settles O30: the fields of a pattern give its value, and rounding a value gives its pattern. -/
theorem roundingKeepsRepresentable : Obligations.RoundingKeepsRepresentable := by
  refine ⟨fun b => ?_, fun b => ?_, ⟨rfl, rfl, rfl, rfl, by decide, by decide, ?_, ?_⟩,
    fun fmt g hg => fmt.val_of_lt_infMag hg, fun fmt g hg => fmt.roundMag_units hg⟩
  · rw [f64_val_eq]
    exact Fmt.signedVal_fields (fmt := .f64) (last := 2047) (by decide) (by decide)
      (Nat.le_of_lt_succ (b.extractLsb' 52 11).isLt) (b.extractLsb' 0 52).isLt _
  · rw [f32_val_eq]
    exact Fmt.signedVal_fields (fmt := .f32) (last := 255) (by decide) (by decide)
      (Nat.le_of_lt_succ (b.extractLsb' 23 8).isLt) (b.extractLsb' 0 23).isLt _
  · have hunits := Fmt.units_infMag (fmt := .f64) (e := 2046) (by decide)
    rwa [show Fmt.f64.infMag = 2047 * 2 ^ 52 by decide, show Fmt.f64.fracBits = 52 from rfl] at hunits
  · have hunits := Fmt.units_infMag (fmt := .f32) (e := 254) (by decide)
    rwa [show Fmt.f32.infMag = 255 * 2 ^ 23 by decide, show Fmt.f32.fracBits = 23 from rfl] at hunits

/-! ## The scaled product (R91) -/

/-- Settles O31: the product's pattern is infinity's or below it, and 0 units round to the pattern 0. -/
theorem scaledProductIsOneMultiplication : Obligations.ScaledProductIsOneMultiplication := by
  refine fun fmt sc neg n => ⟨rfl, rfl, ?_, fun hinf => ?_, fun hfinite => ?_⟩
  · have hpos : 0 < fmt.infMag := by cases fmt <;> decide
    rw [Fmt.scaledProduct, Nat.zero_mul, Fmt.roundMag_zero, Fmt.signedVal, if_neg (Nat.not_lt_zero _),
      if_neg hpos.ne, Fmt.units_zero]
  · rw [Fmt.scaledProduct, hinf, Fmt.signedVal, if_neg (lt_irrefl _), if_pos rfl]
  · rw [Fmt.scaledProduct, Fmt.signedVal, if_neg (fmt.roundMag_le _ _).not_gt, if_neg hfinite]

/-! ## The rounded quotient (R99) -/

/-- A pattern of a magnitude below the sign bit is that magnitude and its sign. -/
theorem Fmt.pattern_fields (fmt : Fmt) (neg : Bool) {mag : Nat} (hmag : mag < 2 ^ (fmt.bits - 1)) :
    fmt.pattern neg mag < 2 ^ fmt.bits ∧ fmt.pattern neg mag % 2 ^ (fmt.bits - 1) = mag ∧
      (fmt.pattern neg mag).testBit (fmt.bits - 1) = neg := by
  have hbits : 2 ^ fmt.bits = 2 ^ (fmt.bits - 1) + 2 ^ (fmt.bits - 1) := by cases fmt <;> rfl
  cases neg with
  | false =>
    have hpat : fmt.pattern false mag = mag := rfl
    rw [hpat, hbits]
    exact ⟨by omega, Nat.mod_eq_of_lt hmag, Nat.testBit_lt_two_pow hmag⟩
  | true =>
    have hpat : fmt.pattern true mag = 2 ^ (fmt.bits - 1) + mag := rfl
    rw [hpat, hbits, Nat.add_mod_left, Nat.testBit_two_pow_add_eq, Nat.testBit_lt_two_pow hmag]
    exact ⟨by omega, Nat.mod_eq_of_lt hmag, rfl⟩

/-- Infinity's count of units is past every 33-bit integer. -/
theorem Fmt.two_pow_lt_units_infMag (fmt : Fmt) : 2 ^ (fmt.unitExp + 32) < fmt.units fmt.infMag := by
  obtain ⟨e, hinf, he⟩ : ∃ e, fmt.infMag = (e + 1) * 2 ^ fmt.fracBits ∧ fmt.unitExp + 32 < fmt.fracBits + e := by
    cases fmt with
    | f64 => exact ⟨2046, by decide, by decide⟩
    | f32 => exact ⟨254, by decide, by decide⟩
  rw [Fmt.units_infMag hinf, ← Nat.pow_add]
  exact Nat.pow_lt_pow_right (by decide) he

/-- The quotient of a 32-bit integer rounds to a finite value: 0 is nearer to it than infinity's pattern. -/
theorem Fmt.roundMag_lt_infMag (fmt : Fmt) {k d : Nat} (hd : 0 < d) (hk : k ≤ 2 ^ 31) :
    fmt.roundMag (k * 2 ^ fmt.unitExp) d < fmt.infMag := by
  refine lt_of_le_of_ne (fmt.roundMag_le _ _) fun hinf => ?_
  have hnear := (fmt.roundMag_nearest (k * 2 ^ fmt.unitExp) hd (Nat.zero_le fmt.infMag)).1
  rw [hinf, fmt.units_zero] at hnear
  have hbig : fmt.units fmt.infMag ≤ fmt.units fmt.infMag * d := Nat.le_mul_of_pos_right _ hd
  have hsmall : k * 2 ^ fmt.unitExp ≤ 2 ^ 31 * 2 ^ fmt.unitExp := Nat.mul_le_mul_right _ hk
  have hpow := fmt.two_pow_lt_units_infMag
  rw [Nat.pow_add] at hpow
  omega

end Sys2Proof

namespace Sys2Proof.Machine

/-! ## Dequantize (R99, R102) -/

theorem factor_pos (sc : Scale) : 0 < sc.factor := by cases sc <;> decide

/-- The accumulator is a signed 32-bit integer (R98). -/
theorem natAbs_accumulator_le (g : Nat) (w : Width) : (accumulator g w).natAbs ≤ 2 ^ 31 := by
  rw [(dequantizeAccumulator g w).1]
  have hlow := BitVec.le_toInt (BitVec.ofNat 32 (g % 2 ^ (8 * w.bytes)))
  have hhigh := BitVec.toInt_lt (x := BitVec.ofNat 32 (g % 2 ^ (8 * w.bytes)))
  omega

/-- Dequantize as the pattern of the accumulator's sign and rounded magnitude (R99). -/
theorem dequantize_eq_pattern (g : Nat) (w : Width) (sc : Scale) (fmt : Fmt) : dequantize g w sc fmt =
    fmt.pattern (decide (accumulator g w < 0))
      (fmt.roundMag ((accumulator g w).natAbs * 2 ^ fmt.unitExp) sc.factor) := by
  rw [← Nat.shiftLeft_eq]
  rfl

/-- Settles O37: the pattern's magnitude is the rounded quotient, which is finite, and its sign the accumulator's. -/
theorem dequantizeFiniteAndSigned : Obligations.DequantizeFiniteAndSigned := by
  intro g w sc fmt
  have hfinite := fmt.roundMag_lt_infMag (factor_pos sc) (natAbs_accumulator_le g w)
  obtain ⟨hlt, hmag, hsign⟩ := fmt.pattern_fields (decide (accumulator g w < 0)) (hfinite.trans fmt.infMag_lt)
  rw [← dequantize_eq_pattern] at hlt hmag hsign
  refine ⟨hlt, hmag, hmag ▸ hfinite, hsign, fun hw => ?_, fun hzero => ?_⟩
  · rw [hsign, accumulator_of_ne_w4 hw]
    exact decide_eq_false (Int.natCast_nonneg _).not_gt
  · rw [dequantize_eq_pattern, hzero, Int.natAbs_zero, Nat.zero_mul, Fmt.roundMag_zero]
    rfl

/-- Settles O38: with no event the integer emitted is `t`, which the accumulator gives back. -/
theorem quantizeDequantizeRoundTrip : Obligations.QuantizeDequantizeRoundTrip := by
  intro x fmt w sc pol t hc
  refine ⟨groupOf t w, ?_, ?_⟩
  · rw [quantize_eq_of_classify hc, emitted_none]
    rfl
  · rw [dequantize, accumulator_groupOf_of_classify_none hc]

/-- At w = 2 and 3 the group of any integer decodes as its residue (R96, R98). -/
theorem dequantize_groupOf_of_ne_w4 {w : Width} (hw : w ≠ .w4) (sc : Scale) (fmt : Fmt) (t : Int) :
    dequantize (groupOf t w) w sc fmt = fmt.roundedQuotient (t % (2 : Int) ^ (8 * w.bytes)) sc.factor := by
  rw [dequantize, accumulator_groupOf, if_neg hw]

/-- Settles O39: the residue of a negative `t` is never negative, and RR(4) is the accumulator's whole range. -/
theorem signDefectKept : Obligations.SignDefectKept := by
  refine ⟨fun w sc fmt t hw ht => ?_, fun sc fmt t hmin hmax => ?_⟩
  · have hpos : (0 : Int) < 2 ^ (8 * w.bytes) := by positivity
    have hdecode := dequantize_groupOf_of_ne_w4 hw sc fmt t
    refine ⟨Int.emod_nonneg _ hpos.ne', hdecode, fun hgt => ?_⟩
    have hmod : t % (2 : Int) ^ (8 * w.bytes) = t + 2 ^ (8 * w.bytes) := by
      rw [← Int.add_emod_right, Int.emod_eq_of_lt (by omega) (by omega)]
    exact ⟨by omega, hmod ▸ hdecode⟩
  · rw [dequantize, (accumulator_groupOf_eq_iff .w4 t).2 ⟨hmin, hmax⟩]

end Sys2Proof.Machine
end

section
/-! SUPPORT. The statements about what each command does (40_scalar_quantizer.md, 41_frame_codec.md,
42_control_commands.md). -/

namespace Sys2Proof.Machine

/-- Settles O40: `execNop` answers the state it is given. -/
theorem nopResult : Obligations.NopResult := fun _ => rfl

/-! ## QENC (R101) -/

/-- A quantization event is never reported as ILL or FLEN, so its report sets no sticky flag (R151, R153). -/
theorem Status.raise_code (st : Status) (ev : Event) (field : BitVec 5) :
    st.raise ev.code field = { st with err := true, errcode := ev.code, efield := field } := by
  cases ev <;> simp [Status.raise, Event.code]

theorem reported_iff (pol : Policy) (ev : Event) : reported pol ev = true ↔ ev ≠ .none ∧ pol ≠ .wrap := by
  simp [reported]

/-- The report of QENC as a choice in each field (R155 to R157). -/
theorem report_eq_ite (pol : Policy) (ev : Event) (st : Status) :
    (if reported pol ev then st.raise ev.code noField else st) = { st with
      err := if ev ≠ .none ∧ pol ≠ .wrap then true else st.err
      errcode := if ev ≠ .none ∧ pol ≠ .wrap then ev.code else st.errcode
      efield := if ev ≠ .none ∧ pol ≠ .wrap then noField else st.efield } := by
  by_cases h : ev ≠ .none ∧ pol ≠ .wrap
  · rw [if_pos ((reported_iff pol ev).2 h), if_pos h, if_pos h, if_pos h, Status.raise_code]
  · rw [if_neg (fun hr => h ((reported_iff pol ev).1 hr)), if_neg h, if_neg h, if_neg h]

/-- QENC by the outcome of its quantization: QB takes the group, and STATUS the flag and the report (R101). -/
theorem qenc_eq_of_quantize {w : Width} {sc : Scale} {fmt : Fmt} {s : State} {ev : Event} {g : Option Nat}
    (h : quantize (scalarOperand s fmt) fmt w sc s.policy = (ev, g)) : qenc w sc fmt s = { s with
      qb := g.elim s.qb (BitVec.ofNat 32)
      status := if reported s.policy ev then (s.status.mark ev).raise ev.code noField else s.status.mark ev } := by
  have hqb := qenc_qb w sc fmt s
  have hstatus := qenc_status w sc fmt s
  rw [h] at hqb hstatus
  rw [qenc_eq, hqb, hstatus]
  cases g <;> rfl

/-- Settles O41: `qenc_eq_of_quantize`, with the report read field by field. -/
theorem qencResult : Obligations.QencResult := by
  intro w sc fmt s ev g hq
  have hop : quantize (scalarOperand s fmt) fmt w sc s.policy = (ev, g) := by cases fmt <;> exact hq
  rw [exec_qenc, qenc_eq_of_quantize hop, report_eq_ite]
  cases g <;> cases ev <;> rfl

/-! ## QDEC (R102) -/

/-- Settles O42: the accumulator cuts QB to its group, and an F32 pattern has 32 bits. -/
theorem qdecResult : Obligations.QdecResult := by
  intro w sc fmt s
  rw [accumulator_mod]
  refine ⟨exec_qdec w sc fmt s, ?_⟩
  rintro rfl
  exact (dequantizeFiniteAndSigned s.qb.toNat w sc .f32).1

/-! ## Operand bits that are ignored (R90, R102) -/

theorem scalarOperand_f32_withQin {s : State} {v : DWord} (h : v.extractLsb' 0 32 = s.qin.extractLsb' 0 32) :
    scalarOperand { s with qin := v } .f32 = scalarOperand s .f32 := by
  rw [scalarOperand, scalarOperand, h]

/-- F32 QENC does the same for another QIN with the same low half. -/
theorem qenc_f32_withQin (w : Width) (sc : Scale) {s : State} {v : DWord}
    (h : v.extractLsb' 0 32 = s.qin.extractLsb' 0 32) :
    qenc w sc .f32 { s with qin := v } = { qenc w sc .f32 s with qin := v } := by
  cases hq : quantize (scalarOperand s .f32) .f32 w sc s.policy with
  | mk ev g =>
    have hq' : quantize (scalarOperand { s with qin := v } .f32) .f32 w sc s.policy = (ev, g) := by
      rw [scalarOperand_f32_withQin h, hq]
    rw [qenc_eq_of_quantize hq, qenc_eq_of_quantize hq']

theorem dequantize_congr {g g' : Nat} {w : Width} (h : g % 2 ^ (8 * w.bytes) = g' % 2 ^ (8 * w.bytes)) (sc : Scale)
    (fmt : Fmt) : dequantize g w sc fmt = dequantize g' w sc fmt := by
  rw [dequantize, dequantize, ← accumulator_mod, h, accumulator_mod]

/-- Settles O43: QENC takes its operand, and QDEC its accumulator, from the bits that are the same. -/
theorem operandBitsIgnored : Obligations.OperandBitsIgnored := by
  refine ⟨fun w sc s t v hv h => ?_, fun w sc fmt s t v hv h => ?_⟩
  · rw [exec_qenc] at h ⊢
    rw [qenc_f32_withQin w sc hv, Host.Outcome.next.inj h]
  · rw [exec_qdec] at h ⊢
    rw [← Host.Outcome.next.inj h, qdec, dequantize_congr hv]
    rfl

/-! ## FENC (R123, R124, R157, R158) -/

/-- FENC as a field update, by the fields it writes (R123). -/
theorem exec_fenc_eq (s : State) : exec .fenc s = .next { s with
    frame := (fenc s).frame, flen := (fenc s).flen, status := (fenc s).status } :=
  congrArg Host.Outcome.next (fenc_eq s)

/-- No field has an event exactly when `firstEvent` finds none. -/
theorem firstEvent_frameEvents_eq_none_iff (s : State) :
    firstEvent 0 (frameEvents s) = none ↔ ∀ f ∈ fieldTable, (fieldResult s f).1 = .none := by
  simp [firstEvent_eq_none, frameEvents]

/-- FENC reports nothing under WRAP, or where no field has an event (R123). -/
theorem fenc_status_unreported {s : State}
    (h : s.policy = .wrap ∨ ∀ f ∈ fieldTable, (fieldResult s f).1 = .none) :
    (fenc s).status = s.status.markAll (frameEvents s) := by
  rw [fenc_status]
  rcases h with hp | hnone
  · split
    · exact if_pos hp
    · rfl
  · rw [(firstEvent_frameEvents_eq_none_iff s).2 hnone]

/-- Outside WRAP FENC reports the first event there is (R158). -/
theorem fenc_status_reported {s : State} {i : Nat} {ev : Event} (hp : s.policy ≠ .wrap)
    (h : firstEvent 0 (frameEvents s) = some (i, ev)) :
    (fenc s).status = (s.status.markAll (frameEvents s)).raise ev.code (BitVec.ofNat 5 i) := by
  rw [fenc_status, h]
  exact if_neg hp

/-- Settles O46: each group is read back from the encoded frame, and nothing is reported without an event. -/
theorem fencWritesWholeFrame : Obligations.FencWritesWholeFrame := by
  intro s hw
  obtain ⟨hframe, hflen⟩ := fenc_written hw
  have hexec := exec_fenc_eq s
  rw [hframe, hflen] at hexec
  refine ⟨encodedFrame s, (fenc s).status, hexec, fun f hf => ?_, fun a ha => read_encodedFrame_outside s ha, fun h => ?_⟩
  · obtain ⟨g, hg⟩ := field_some hw hf
    exact ⟨g, hg, readGroup_encodedFrame hf hg⟩
  · rw [fenc_status_unreported h]
    obtain ⟨-, -, herr, hcode, hfield, -⟩ := markAll_busy s.status (frameEvents s)
    exact ⟨herr, hcode, hfield⟩

theorem Event.code_ne_none {ev : Event} (h : ev ≠ .none) : ev.code ≠ .none := by
  cases ev with
  | none => exact absurd rfl h
  | ovf | sgn | inv => exact nofun

/-- Settles O47: FENC keeps FRAME and FLEN, and its report is that of the first event. -/
theorem fencRejectWritesNothing : Obligations.FencRejectWritesNothing := by
  intro s hp hevent
  have hsome := (firstEvent_frameEvents_isSome s).2 hevent
  obtain ⟨hframe, hflen⟩ := fenc_frame s
  rw [if_pos ⟨hp, hsome⟩] at hframe hflen
  have hexec := exec_fenc_eq s
  rw [hframe, hflen] at hexec
  obtain ⟨⟨i, ev⟩, hfirst⟩ := Option.isSome_iff_exists.1 hsome
  obtain ⟨-, -, hev, -⟩ := (firstEvent_eq_some 0 _ i ev).1 hfirst
  refine ⟨(fenc s).status, hexec, ?_⟩
  rw [fenc_status_reported (by rw [hp]; nofun) hfirst]
  exact ⟨rfl, Event.code_ne_none hev⟩

theorem mem_frameEvents {s : State} {ev : Event} : ev ∈ frameEvents s ↔ ∃ f ∈ fieldTable, (fieldResult s f).1 = ev :=
  List.mem_map

/-- STATUS after FENC is the marked one, with or without the report of an event (R123). -/
theorem fenc_status_cases (s : State) : (fenc s).status = s.status.markAll (frameEvents s) ∨
    ∃ (ev : Event) (field : BitVec 5), (fenc s).status = (s.status.markAll (frameEvents s)).raise ev.code field := by
  cases hfirst : firstEvent 0 (frameEvents s) with
  | none => exact Or.inl (by rw [fenc_status, hfirst])
  | some p =>
    by_cases hp : s.policy = .wrap
    · exact Or.inl (fenc_status_unreported (Or.inl hp))
    · exact Or.inr ⟨p.2, _, fenc_status_reported hp hfirst⟩

/-- Settles O48: the flags are those of `Status.markAll` over the events of all fields, and a report sets none. -/
theorem fencClassifiesEveryField : Obligations.FencClassifiesEveryField := by
  intro s
  refine ⟨fenc s, exec_fenc s, ?_⟩
  obtain ⟨hovf, hsgn, hinv⟩ := markAll_sticky s.status (frameEvents s)
  obtain ⟨hbusy, hdone, -, -, -, hflen, hill, hhaz⟩ := markAll_busy s.status (frameEvents s)
  rw [mem_frameEvents] at hovf hsgn hinv
  rcases fenc_status_cases s with hstatus | ⟨ev, field, hstatus⟩
  · rw [hstatus]
    exact ⟨hovf, hsgn, hinv, hflen, hill, hhaz, hbusy, hdone⟩
  · rw [hstatus, Status.raise_code]
    exact ⟨hovf, hsgn, hinv, hflen, hill, hhaz, hbusy, hdone⟩

/-- Settles O49: the field is the one `firstEvent` finds, and its index is at most 13. -/
theorem fencReportsLowestField : Obligations.FencReportsLowestField := by
  intro s i f hp hf hev hlow
  have hfirst : firstEvent 0 (frameEvents s) = some (i, (fieldResult s f).1) := by
    refine (firstEvent_eq_some 0 _ _ _).2 ⟨Nat.zero_le i, by simp [frameEvents, hf], hev, fun j _ hj => ?_⟩
    obtain ⟨hi, -⟩ := List.getElem?_eq_some_iff.1 hf
    have hj' := List.getElem?_eq_getElem (hj.trans hi)
    simp only [frameEvents, Nat.sub_zero, List.getElem?_map, hj', Option.map_some, hlow j _ hj hj']
  refine ⟨frameEvents_firstEvent hfirst, fenc s, exec_fenc s, ?_⟩
  rw [fenc_status_reported hp hfirst]
  exact ⟨rfl, rfl, rfl⟩

/-! ## FDEC (R125, R126) -/

/-- FDEC of a 42-byte frame writes the output registers alone; what it writes is named by the caller. -/
theorem exec_fdec_of_outputs {s : State} (h : s.flen = 42#8) {dout : Vector DWord 8} {fout : Vector Word 6}
    {bout : Vector Byte 4} {cout : Word} (hdout : (fdec s).dout = dout) (hfout : (fdec s).fout = fout)
    (hbout : (fdec s).bout = bout) (hcout : (fdec s).cout = cout) :
    exec .fdec s = .next { s with dout := dout, fout := fout, bout := bout, cout := cout } := by
  have hstatus := fdec_status s
  rw [if_pos h] at hstatus
  rw [exec_fdec, fdec_eq, hdout, hfout, hbout, hcout, hstatus]

/-- DOUT[i] after FDEC, by the row of the table that feeds it. -/
theorem fdec_dout {s : State} (h : s.flen = 42#8) {i : Nat} {hi : i < 8} {w : Width} {sc : Scale} {off : Nat}
    (hf : (⟨.d ⟨i, hi⟩, .quantized w sc .f64, off⟩ : Field) ∈ fieldTable) :
    (fdec s).dout[i] = BitVec.ofNat 64 (dequantize (s.frame.readGroup off w.bytes) w sc .f64) :=
  fdec_outputs h _ hf

/-- FOUT[j] after FDEC, by the row of the table that feeds it. -/
theorem fdec_fout {s : State} (h : s.flen = 42#8) {j : Nat} {hj : j < 6} {w : Width} {sc : Scale} {off : Nat}
    (hf : (⟨.f ⟨j, hj⟩, .quantized w sc .f32, off⟩ : Field) ∈ fieldTable) :
    (fdec s).fout[j] = BitVec.ofNat 32 (dequantize (s.frame.readGroup off w.bytes) w sc .f32) :=
  fdec_outputs h _ hf

/-- BOUT[j] after FDEC is its one byte of the frame. -/
theorem fdec_bout {s : State} (h : s.flen = 42#8) {j : Nat} (hj : j < 4) : (fdec s).bout[j] = s.frame.read (34 + j) :=
  (fdec_outputs h _ (u8_mem_fieldTable ⟨j, hj⟩)).trans (Memory.readGroup_one _ _)

/-- COUT after FDEC is its four bytes of the frame, most significant first. -/
theorem fdec_cout {s : State} (h : s.flen = 42#8) :
    (fdec s).cout = s.frame.read 38 ++ s.frame.read 39 ++ s.frame.read 40 ++ s.frame.read 41 :=
  (fdec_outputs h ⟨.u32, .raw 4, 38⟩ (by decide)).trans (Memory.readGroup_four _ _)

/-- FLEN sets S_FLEN and no other sticky flag (R153). -/
theorem Status.raise_flen (st : Status) (field : BitVec 5) :
    st.raise .flen field = { st with err := true, errcode := .flen, efield := field, sFlen := true } := by
  simp [Status.raise]

/-- Settles O52: register by register each output is decoded from its row of the table, and a wrong length is error
FLEN. -/
theorem fdecResult : Obligations.FdecResult := by
  refine fun s => ⟨fun h => exec_fdec_of_outputs h ?_ ?_ ?_ (fdec_cout h), fun h => ?_⟩
  · refine Vector.ext fun i hi => ?_
    interval_cases i <;> exact fdec_dout h (by decide +revert)
  · refine Vector.ext fun j hj => ?_
    interval_cases j <;> exact fdec_fout h (by decide +revert)
  · refine Vector.ext fun j hj => ?_
    rw [fdec_bout h hj]
    interval_cases j <;> rfl
  · rw [exec_fdec, fdec_error h, State.raiseError, Status.raise_flen]
    rfl

/-- Settles O53: what FDEC answers depends on FRAME and FLEN, which it keeps. -/
theorem fdecRepeats : Obligations.FdecRepeats := by
  intro s
  by_cases h : s.flen = 42#8
  · exact ⟨_, (fdecResult s).1 h, (fdecResult _).1 h, rfl, rfl⟩
  · exact ⟨_, (fdecResult s).2 h, (fdecResult _).2 h, rfl, rfl⟩

/-! ## What every command leaves unchanged (R180) -/

/-- The registers that each of the five operations may write. -/
theorem exec_cases {i : Instr} {s t : State} (h : exec i s = .next t) :
    (i = .nop ∧ t = s) ∨
    (∃ w sc fmt, i = qencOf w sc fmt ∧ t = { s with qb := t.qb, status := t.status }) ∨
    (∃ w sc fmt, i = qdecOf w sc fmt ∧ t = { s with qout := t.qout }) ∨
    (i = .fenc ∧ t = { s with frame := t.frame, flen := t.flen, status := t.status }) ∨
    (i = .fdec ∧ t = { s with dout := t.dout, fout := t.fout, bout := t.bout, cout := t.cout, status := t.status }) := by
  rcases instr_cases i with rfl | ⟨w, sc, fmt, rfl⟩ | ⟨w, sc, fmt, rfl⟩ | rfl | rfl
  · exact Or.inl ⟨rfl, (Host.Outcome.next.inj h).symm⟩
  · obtain rfl := Host.Outcome.next.inj ((exec_qenc w sc fmt s).symm.trans h)
    exact Or.inr (Or.inl ⟨w, sc, fmt, rfl, qenc_eq w sc fmt s⟩)
  · obtain rfl := Host.Outcome.next.inj ((exec_qdec w sc fmt s).symm.trans h)
    exact Or.inr (Or.inr (Or.inl ⟨w, sc, fmt, rfl, rfl⟩))
  · obtain rfl := Host.Outcome.next.inj h
    exact Or.inr (Or.inr (Or.inr (Or.inl ⟨rfl, fenc_eq s⟩)))
  · obtain rfl := Host.Outcome.next.inj h
    exact Or.inr (Or.inr (Or.inr (Or.inr ⟨rfl, fdec_eq s⟩)))

/-- No command changes BUSY, DONE, S_HAZ or S_ILL, and only FDEC changes S_FLEN (R126, R154). -/
theorem exec_keeps_flags {i : Instr} {s t : State} (h : exec i s = .next t) :
    (t.status.busy = s.status.busy ∧ t.status.done = s.status.done ∧ t.status.sHaz = s.status.sHaz ∧
      t.status.sIll = s.status.sIll) ∧ (i ≠ .fdec → t.status.sFlen = s.status.sFlen) := by
  obtain ⟨st, hreport, hbusy, hdone, -, -, -, hflen, hill, hhaz, -⟩ := exec_status h
  rcases hreport with ht | ⟨code, field, ht, ⟨rfl, -, rfl⟩ | ⟨hquant, -⟩⟩ <;> rw [ht]
  · exact ⟨⟨hbusy, hdone, hhaz, hill⟩, fun _ => hflen⟩
  · rw [Status.raise_flen]
    exact ⟨⟨hbusy, hdone, hhaz, hill⟩, fun hne => absurd rfl hne⟩
  · obtain ⟨ev, rfl⟩ : ∃ ev : Event, code = ev.code := by
      rcases hquant with rfl | rfl | rfl
      · exact ⟨.ovf, rfl⟩
      · exact ⟨.sgn, rfl⟩
      · exact ⟨.inv, rfl⟩
    rw [Status.raise_code]
    exact ⟨⟨hbusy, hdone, hhaz, hill⟩, fun _ => hflen⟩

/-- FENC leaves every address past the frame's end alone (R129). -/
theorem read_fenc_outside (s : State) {a : Nat} (ha : 42 ≤ a) : (fenc s).frame.read a = s.frame.read a := by
  rw [(fenc_frame s).1]
  split
  · rfl
  · exact read_encodedFrame_outside s ha

/-- FDEC changes no quantization flag (R125, R126). -/
theorem fdec_keeps_quantization_flags (s : State) : (fdec s).status.sOvf = s.status.sOvf ∧
    (fdec s).status.sSgn = s.status.sSgn ∧ (fdec s).status.sInv = s.status.sInv := by
  rw [fdec_status]
  split <;> exact ⟨rfl, rfl, rfl⟩

/-- Settles O54: the registers by the operation's own update, the flags from what it can report. -/
theorem commandFrames : Obligations.CommandFrames := by
  intro i s t h
  obtain ⟨hflags, hflen⟩ := exec_keeps_flags h
  have hcases := exec_cases h
  refine ⟨exec_keep h, hflags, fun hne => ?_, fun hne => ?_, ?_, fun hne => ?_, fun hne => ?_, ?_, ?_⟩
  · have hsame : t.dout = s.dout ∧ t.fout = s.fout ∧ t.bout = s.bout ∧ t.cout = s.cout := by
      rcases hcases with ⟨-, ht⟩ | ⟨_, _, _, -, ht⟩ | ⟨_, _, _, -, ht⟩ | ⟨-, ht⟩ | ⟨hi, -⟩
      iterate 4 (rw [ht]; exact ⟨rfl, rfl, rfl, rfl⟩)
      exact absurd hi hne
    obtain ⟨hdout, hfout, hbout, hcout⟩ := hsame
    exact ⟨hdout, hfout, hbout, hcout, hflen hne⟩
  · rcases hcases with ⟨-, ht⟩ | ⟨_, _, _, -, ht⟩ | ⟨_, _, _, -, ht⟩ | ⟨hi, -⟩ | ⟨-, ht⟩
    iterate 3 (rw [ht]; exact ⟨rfl, fun _ => rfl⟩)
    · exact absurd hi hne
    · rw [ht]; exact ⟨rfl, fun _ => rfl⟩
  · rintro rfl a ha
    obtain rfl := Host.Outcome.next.inj h
    exact read_fenc_outside s ha
  · rcases hcases with ⟨-, ht⟩ | ⟨w, sc, fmt, hi, -⟩ | ⟨_, _, _, -, ht⟩ | ⟨-, ht⟩ | ⟨-, ht⟩
    · rw [ht]
    · exact absurd hi (hne w sc fmt)
    all_goals rw [ht]
  · rcases hcases with ⟨-, ht⟩ | ⟨_, _, _, -, ht⟩ | ⟨w, sc, fmt, hi, -⟩ | ⟨-, ht⟩ | ⟨-, ht⟩
    · rw [ht]
    · rw [ht]
    · exact absurd hi (hne w sc fmt)
    all_goals rw [ht]
  · rintro (rfl | ⟨w, sc, fmt, rfl⟩)
    · obtain rfl := Host.Outcome.next.inj h
      rfl
    · obtain rfl := Host.Outcome.next.inj ((exec_qdec w sc fmt s).symm.trans h)
      rfl
  · rintro rfl
    obtain rfl := Host.Outcome.next.inj h
    exact fdec_keeps_quantization_flags s

end Sys2Proof.Machine
end
